-- ==== Sys2Proof/Word.lean ====
section
/-! DEFINITION. The word types of the bs core (spec/00_scope.md R9, R10). -/

namespace Sys2Proof

/-- A register value, the pc, an address or an immediate: 32 bits (R10). -/
abbrev Word := BitVec 32

/-- A byte of memory or of an instruction. -/
abbrev Byte := BitVec 8

/-- The index of a general register, 0 to 255 (R21): every value names a register. -/
abbrev RegIx := BitVec 8

end Sys2Proof
end

