-- ==== Sys2Proof/Config.lean ====
section
/-! DEFINITION. The parameters of the bs core (spec/00_scope.md R9) and the operand shapes (spec/30_encoding.md R63).
`XLEN`, `NREGS` and `SP_INDEX` have one legal value each and are fixed in the types. The default values stand in
Decode.lean (`Config.default`). -/

namespace Sys2Proof

/-- The 31 mnemonics of R67, in the order of its table. -/
inductive Op where
  | mov | ldb | ldw | stb | stw
  | jmp | jsr | rts
  | beq | bne | blt | ble | bgt | bge
  | cmp
  | push | pop
  | add | sub | mul | div | mod | and | or | xor | shl | shr
  | exit | println | print | run
deriving DecidableEq, Repr

/-- The three operand counts of one opcode (R63). -/
structure Shape where
  /-- `out_count`: output register operands. -/
  outs : Nat
  /-- `reg_count`: register input operands. -/
  regs : Nat
  /-- `final_count`: operands resolved by the addressing mode. -/
  finals : Nat
deriving DecidableEq, Repr

/-- `DIV_OVERFLOW_POLICY` (R9, R135, R136): what DIV and MOD do for -2^31 and -1. -/
inductive DivOverflowPolicy where
  | fault
  | wrap
deriving DecidableEq, Repr

/-- `SHIFT_RANGE_POLICY` (R9, R140, R141): what SHL and SHR do for an amount outside 0..31. -/
inductive ShiftRangePolicy where
  | fault
  | mask5
deriving DecidableEq, Repr

/-- The parameters of R9. The spec says that a model takes each as an argument; State carries them, no step
changes them (DESIGN CHOICE, log entry 1, safe). -/
structure Config where
  /-- `MEM_SIZE`: the bytes of memory. -/
  memSize : Nat
  /-- `OPCODE_OF`: entry k is the mnemonic with opcode k + 1. -/
  opcodes : Vector Op 31
  /-- `SHAPE`: how many inputs of LDB are register inputs; the others are final operands. The rows of R63 that the
  source forces have no parameter, and those marked D4 have this one (DEDUCED, log entry 3, safe). -/
  ldbRegs : Fin 3
  /-- `SHAPE` of LDW, as `ldbRegs`. -/
  ldwRegs : Fin 3
  /-- `SHAPE` of STB, as `ldbRegs`. -/
  stbRegs : Fin 4
  /-- `SHAPE` of STW, as `ldbRegs`. -/
  stwRegs : Fin 4
  /-- `SHAPE` of CMP, as `ldbRegs`. -/
  cmpRegs : Fin 3
  /-- `SHAPE` of PUSH, as `ldbRegs`. -/
  pushRegs : Fin 2
  /-- `DIV_OVERFLOW_POLICY`. -/
  divOverflow : DivOverflowPolicy
  /-- `SHIFT_RANGE_POLICY`. -/
  shiftRange : ShiftRangePolicy
deriving DecidableEq, Repr

/-- The legal values of the parameters (R9): `MEM_SIZE` from 2^20 to 2^31, and `OPCODE_OF` a bijection. -/
abbrev Config.Legal (c : Config) : Prop :=
  2 ^ 20 ≤ c.memSize ∧ c.memSize ≤ 2 ^ 31 ∧ c.opcodes.toList.Nodup

/-- `SHAPE(op)` (R63). -/
def Config.shape (c : Config) : Op → Shape
  | .mov => ⟨1, 0, 1⟩
  | .ldb => ⟨1, c.ldbRegs, 2 - c.ldbRegs⟩
  | .ldw => ⟨1, c.ldwRegs, 2 - c.ldwRegs⟩
  | .stb => ⟨0, c.stbRegs, 3 - c.stbRegs⟩
  | .stw => ⟨0, c.stwRegs, 3 - c.stwRegs⟩
  | .jmp | .jsr => ⟨0, 0, 1⟩
  | .rts => ⟨0, 0, 0⟩
  | .beq | .bne | .blt | .ble | .bgt | .bge => ⟨0, 0, 1⟩
  | .cmp => ⟨0, c.cmpRegs, 2 - c.cmpRegs⟩
  | .push => ⟨0, c.pushRegs, 1 - c.pushRegs⟩
  | .pop => ⟨1, 0, 0⟩
  | .add | .sub | .mul | .div | .mod | .and | .or | .xor | .shl | .shr => ⟨1, 0, 1⟩
  | .exit | .println | .print | .run => ⟨0, 0, 1⟩

end Sys2Proof
end

