-- ==== Sys2Proof/Syntax.lean ====
section
/-! DEFINITION. The instructions of the bs core: one constructor for each row of spec/opcode_table.json, with the
operands in the decoded order of spec/30_encoding.md R62. -/

namespace Sys2Proof

/-- The 2-bit addressing mode of an instruction (R64). -/
inductive Mode where
  | register
  | immediate8
  | pcRelative8
  | immediate32
deriving DecidableEq, Repr

/-- An input operand as the encoding gives it, before it is resolved (R64). A register input operand (R61) has the
form `reg` too: it is one raw register index in every mode (R65). -/
inductive Src where
  /-- A register index. -/
  | reg (i : RegIx)
  /-- An 8-bit immediate. -/
  | imm8 (b : Byte)
  /-- An 8-bit offset from the instruction's own first byte. -/
  | pcrel8 (d : Byte)
  /-- A 32-bit immediate. -/
  | imm32 (w : Word)
deriving DecidableEq, Repr

/-- The 33 rows of spec/opcode_table.json: the 31 instructions and the two rows of unrecognized opcodes (R151). `rd` is
an output register operand. -/
inductive Instr where
  | unrecZero
  | mov (rd : RegIx) (v : Src)
  | ldb (rd : RegIx) (base off : Src)
  | ldw (rd : RegIx) (base off : Src)
  | stb (v base off : Src)
  | stw (v base off : Src)
  | jmp (addr : Src)
  | jsr (addr : Src)
  | rts
  | beq (addr : Src)
  | bne (addr : Src)
  | blt (addr : Src)
  | ble (addr : Src)
  | bgt (addr : Src)
  | bge (addr : Src)
  | cmp (a b : Src)
  | push (v : Src)
  | pop (rd : RegIx)
  | add (rd : RegIx) (v : Src)
  | sub (rd : RegIx) (v : Src)
  | mul (rd : RegIx) (v : Src)
  | div (rd : RegIx) (v : Src)
  | mod (rd : RegIx) (v : Src)
  | and (rd : RegIx) (v : Src)
  | or (rd : RegIx) (v : Src)
  | xor (rd : RegIx) (v : Src)
  | shl (rd : RegIx) (v : Src)
  | shr (rd : RegIx) (v : Src)
  | exit (code : Src)
  | println (strAddr : Src)
  | print (strAddr : Src)
  | run (strAddr : Src)
  /-- Opcodes 32..63; `low` is bits 4:0 of the opcode (R69). -/
  | unrecHigh (low : BitVec 5)
deriving DecidableEq, Repr

end Sys2Proof
end

