-- ==== Sys2Proof/WellFormed.lean ====
section
/-! DEFINITION. Which instructions an encoding can hold under given parameters: the register input operands are registers
(spec/30_encoding.md R61), and all final operands of one instruction have the one addressing mode (R65). -/

namespace Sys2Proof

/-- The mode that gives an operand of this form (R64). -/
def Src.mode : Src → Mode
  | .reg _ => .register
  | .imm8 _ => .immediate8
  | .pcrel8 _ => .pcRelative8
  | .imm32 _ => .immediate32

/-- All of these final operands have one mode (R65). -/
def uniformMode : List Src → Bool
  | [] => true
  | a :: rest => rest.all fun b => b.mode == a.mode

/-- The inputs fit a shape: as many as it counts, the register inputs first, then final operands of one mode
(R62, R63, R65). -/
def Shape.fits (sh : Shape) (ins : List Src) : Bool :=
  ins.length == sh.regs + sh.finals &&
    (ins.take sh.regs).all (fun a => a.mode == .register) && uniformMode (ins.drop sh.regs)

/-- The instruction has an encoding under the parameters `c`. -/
def Instr.wellFormed (c : Config) : Instr → Bool
  | .unrecZero => true
  | .mov _ v => (c.shape .mov).fits [v]
  | .ldb _ base off => (c.shape .ldb).fits [base, off]
  | .ldw _ base off => (c.shape .ldw).fits [base, off]
  | .stb v base off => (c.shape .stb).fits [v, base, off]
  | .stw v base off => (c.shape .stw).fits [v, base, off]
  | .jmp addr => (c.shape .jmp).fits [addr]
  | .jsr addr => (c.shape .jsr).fits [addr]
  | .rts => (c.shape .rts).fits []
  | .beq addr => (c.shape .beq).fits [addr]
  | .bne addr => (c.shape .bne).fits [addr]
  | .blt addr => (c.shape .blt).fits [addr]
  | .ble addr => (c.shape .ble).fits [addr]
  | .bgt addr => (c.shape .bgt).fits [addr]
  | .bge addr => (c.shape .bge).fits [addr]
  | .cmp a b => (c.shape .cmp).fits [a, b]
  | .push v => (c.shape .push).fits [v]
  | .pop _ => (c.shape .pop).fits []
  | .add _ v => (c.shape .add).fits [v]
  | .sub _ v => (c.shape .sub).fits [v]
  | .mul _ v => (c.shape .mul).fits [v]
  | .div _ v => (c.shape .div).fits [v]
  | .mod _ v => (c.shape .mod).fits [v]
  | .and _ v => (c.shape .and).fits [v]
  | .or _ v => (c.shape .or).fits [v]
  | .xor _ v => (c.shape .xor).fits [v]
  | .shl _ v => (c.shape .shl).fits [v]
  | .shr _ v => (c.shape .shr).fits [v]
  | .exit code => (c.shape .exit).fits [code]
  | .println a => (c.shape .println).fits [a]
  | .print a => (c.shape .print).fits [a]
  | .run a => (c.shape .run).fits [a]
  | .unrecHigh _ => true

end Sys2Proof
end

