-- ==== Sys2Proof/Decode.lean ====
section
/-! DEFINITION. The default parameters (spec/00_scope.md R9, spec/30_encoding.md R67), the decoder (R60, R61, R63, R64, R68, R69)
and, after it, the encoder (R71). The decoder leaves operands unresolved: the meanings resolve them in the state
before the instruction, which is the state the spec's Decode() reads (DEDUCED, log entry 9, safe). -/

namespace Sys2Proof

/-- The default `OPCODE_OF` (R67): MOV is 1, ..., RUN is 31. -/
def defaultOpcodes : Vector Op 31 := #v[
  .mov, .ldb, .ldw, .stb, .stw, .jmp, .jsr, .rts, .beq, .bne, .blt, .ble, .bgt, .bge, .cmp, .push,
  .pop, .add, .sub, .mul, .div, .mod, .and, .or, .xor, .shl, .shr, .exit, .println, .print, .run]

/-- The default parameters (R9, R63). The spec chose them, an image of the real assembler may need others
(spec/92_eei_decisions.md D3, D4, D6, D17, D18; log entry 2, unsafe). -/
def Config.default : Config where
  memSize := 2 ^ 20
  opcodes := defaultOpcodes
  ldbRegs := 1
  ldwRegs := 1
  stbRegs := 2
  stwRegs := 2
  cmpRegs := 1
  pushRegs := 0
  divOverflow := .fault
  shiftRange := .fault

/-- Why a byte sequence gives no instruction: its bytes end inside the instruction. There is no other reason,
since every opcode byte and every operand byte has a meaning (R72). -/
inductive DecodeError where
  | truncated
deriving DecidableEq, Repr

/-- What a part of the decoder gives: a value and the bytes after it, or the reason there is none. -/
abbrev Decoded (α : Type) := Except DecodeError (α × List Byte)

/-- The mode with this number (R64). -/
def Mode.ofBits (m : BitVec 2) : Mode :=
  if m = 0 then .register else if m = 1 then .immediate8 else if m = 2 then .pcRelative8 else .immediate32

/-- The number of a mode (R64). -/
def Mode.toBits : Mode → BitVec 2
  | .register => 0
  | .immediate8 => 1
  | .pcRelative8 => 2
  | .immediate32 => 3

/-- `mode = b[7:6]` (R60). -/
def modeField (b : Byte) : Mode := Mode.ofBits (b.extractLsb' 6 2)

/-- `opcode = b[5:0]` (R60). -/
def opcodeField (b : Byte) : BitVec 6 := b.extractLsb' 0 6

/-- The opcode byte of opcode `op` in mode `m`: `m*64 + op` (R60). -/
def opcodeByte (m : Mode) (op : BitVec 6) : Byte := m.toBits ++ op

/-- The instruction that has this opcode number, none where the number is unrecognized: 0 and 32..63 (R67, R68, R69). -/
def Config.opAt (c : Config) (n : BitVec 6) : Option Op :=
  if h : 1 ≤ n.toNat ∧ n.toNat ≤ 31 then some (c.opcodes[n.toNat - 1]'(by omega)) else none

/-- `OPCODE_OF(op)` (R9, R67). -/
def Config.opcodeOf (c : Config) (op : Op) : BitVec 6 := BitVec.ofNat 6 (c.opcodes.toList.idxOf op + 1)

/-- One byte, the decoder's `Fetch8` (R60). -/
def takeByte : List Byte → Decoded Byte
  | [] => .error .truncated
  | b :: rest => .ok (b, rest)

/-- A final operand in its mode (R64). -/
def takeFinal (m : Mode) (bytes : List Byte) : Decoded Src :=
  match m, bytes with
  | .register, i :: rest => .ok (.reg i, rest)
  | .immediate8, b :: rest => .ok (.imm8 b, rest)
  | .pcRelative8, d :: rest => .ok (.pcrel8 d, rest)
  | .immediate32, b0 :: b1 :: b2 :: b3 :: rest => .ok (.imm32 (b3 ++ b2 ++ b1 ++ b0), rest)
  | _, _ => .error .truncated

/-- An input operand: a register input where `isReg`, else a final operand (R61). -/
def takeInput (isReg : Bool) (m : Mode) (bytes : List Byte) : Decoded Src :=
  takeFinal (if isReg then .register else m) bytes

/-- Format F1, one input (R70, R71). -/
def decodeF1 (regs : Nat) (m : Mode) (f : Src → Instr) (bytes : List Byte) : Decoded Instr :=
  match takeInput (decide (0 < regs)) m bytes with
  | .ok (a, rest) => .ok (f a, rest)
  | .error e => .error e

/-- Format FO, one output register (R70, R71). -/
def decodeFO (f : RegIx → Instr) (bytes : List Byte) : Decoded Instr :=
  match takeByte bytes with
  | .ok (rd, rest) => .ok (f rd, rest)
  | .error e => .error e

/-- Format FOV, an output register and one input (R70, R71). -/
def decodeFOV (m : Mode) (f : RegIx → Src → Instr) (bytes : List Byte) : Decoded Instr :=
  match takeByte bytes with
  | .ok (rd, rest) => decodeF1 0 m (f rd) rest
  | .error e => .error e

/-- Format FRV, two inputs of which the first `regs` are register inputs (R70, R71). -/
def decodeFRV (regs : Nat) (m : Mode) (f : Src → Src → Instr) (bytes : List Byte) : Decoded Instr :=
  match takeInput (decide (0 < regs)) m bytes with
  | .ok (a, rest) => decodeF1 (regs - 1) m (f a) rest
  | .error e => .error e

/-- Format FORV, an output register and two inputs (R70, R71). -/
def decodeFORV (regs : Nat) (m : Mode) (f : RegIx → Src → Src → Instr) (bytes : List Byte) : Decoded Instr :=
  match takeByte bytes with
  | .ok (rd, rest) => decodeFRV regs m (f rd) rest
  | .error e => .error e

/-- Format FRRV, three inputs (R70, R71). -/
def decodeFRRV (regs : Nat) (m : Mode) (f : Src → Src → Src → Instr) (bytes : List Byte) : Decoded Instr :=
  match takeInput (decide (0 < regs)) m bytes with
  | .ok (a, rest) => decodeFRV (regs - 1) m (f a) rest
  | .error e => .error e

/-- The operands of a recognized instruction, after its opcode byte (R61, R63). -/
def decodeOperands (c : Config) (op : Op) (m : Mode) (bytes : List Byte) : Decoded Instr :=
  match op with
  | .mov => decodeFOV m .mov bytes
  | .ldb => decodeFORV (c.shape .ldb).regs m .ldb bytes
  | .ldw => decodeFORV (c.shape .ldw).regs m .ldw bytes
  | .stb => decodeFRRV (c.shape .stb).regs m .stb bytes
  | .stw => decodeFRRV (c.shape .stw).regs m .stw bytes
  | .jmp => decodeF1 0 m .jmp bytes
  | .jsr => decodeF1 0 m .jsr bytes
  | .rts => .ok (.rts, bytes)
  | .beq => decodeF1 0 m .beq bytes
  | .bne => decodeF1 0 m .bne bytes
  | .blt => decodeF1 0 m .blt bytes
  | .ble => decodeF1 0 m .ble bytes
  | .bgt => decodeF1 0 m .bgt bytes
  | .bge => decodeF1 0 m .bge bytes
  | .cmp => decodeFRV (c.shape .cmp).regs m .cmp bytes
  | .push => decodeF1 (c.shape .push).regs m .push bytes
  | .pop => decodeFO .pop bytes
  | .add => decodeFOV m .add bytes
  | .sub => decodeFOV m .sub bytes
  | .mul => decodeFOV m .mul bytes
  | .div => decodeFOV m .div bytes
  | .mod => decodeFOV m .mod bytes
  | .and => decodeFOV m .and bytes
  | .or => decodeFOV m .or bytes
  | .xor => decodeFOV m .xor bytes
  | .shl => decodeFOV m .shl bytes
  | .shr => decodeFOV m .shr bytes
  | .exit => decodeF1 0 m .exit bytes
  | .println => decodeF1 0 m .println bytes
  | .print => decodeF1 0 m .print bytes
  | .run => decodeF1 0 m .run bytes

/-- An opcode byte whose opcode is unrecognized: a one-byte instruction, the mode bits ignored (R65, R68, R69). -/
def unrecognized (b : Byte) : Instr :=
  if opcodeField b = 0 then .unrecZero else .unrecHigh (b.extractLsb' 0 5)

/-- `Decode()` on the bytes from `pc` on (R61): the instruction and the bytes after it. -/
def decode (c : Config) : List Byte → Decoded Instr
  | [] => .error .truncated
  | b :: rest =>
    match c.opAt (opcodeField b) with
    | some op => decodeOperands c op (modeField b) rest
    | none => .ok (unrecognized b, rest)

/-- The mnemonic, the output registers and the inputs of a recognized instruction, in the order of R62. -/
def Instr.parts : Instr → Option (Op × List RegIx × List Src)
  | .unrecZero => none
  | .mov rd v => some (.mov, [rd], [v])
  | .ldb rd base off => some (.ldb, [rd], [base, off])
  | .ldw rd base off => some (.ldw, [rd], [base, off])
  | .stb v base off => some (.stb, [], [v, base, off])
  | .stw v base off => some (.stw, [], [v, base, off])
  | .jmp addr => some (.jmp, [], [addr])
  | .jsr addr => some (.jsr, [], [addr])
  | .rts => some (.rts, [], [])
  | .beq addr => some (.beq, [], [addr])
  | .bne addr => some (.bne, [], [addr])
  | .blt addr => some (.blt, [], [addr])
  | .ble addr => some (.ble, [], [addr])
  | .bgt addr => some (.bgt, [], [addr])
  | .bge addr => some (.bge, [], [addr])
  | .cmp a b => some (.cmp, [], [a, b])
  | .push v => some (.push, [], [v])
  | .pop rd => some (.pop, [rd], [])
  | .add rd v => some (.add, [rd], [v])
  | .sub rd v => some (.sub, [rd], [v])
  | .mul rd v => some (.mul, [rd], [v])
  | .div rd v => some (.div, [rd], [v])
  | .mod rd v => some (.mod, [rd], [v])
  | .and rd v => some (.and, [rd], [v])
  | .or rd v => some (.or, [rd], [v])
  | .xor rd v => some (.xor, [rd], [v])
  | .shl rd v => some (.shl, [rd], [v])
  | .shr rd v => some (.shr, [rd], [v])
  | .exit code => some (.exit, [], [code])
  | .println a => some (.println, [], [a])
  | .print a => some (.print, [], [a])
  | .run a => some (.run, [], [a])
  | .unrecHigh _ => none

/-- The bytes of an input operand (R64, R71): 32-bit values least significant byte first. -/
def Src.bytes : Src → List Byte
  | .reg i => [i]
  | .imm8 b => [b]
  | .pcrel8 d => [d]
  | .imm32 w => [w.extractLsb' 0 8, w.extractLsb' 8 8, w.extractLsb' 16 8, w.extractLsb' 24 8]

/-- The length of an instruction in bytes (R70). -/
def Instr.length (i : Instr) : Nat :=
  match i.parts with
  | none => 1
  | some (_, outs, ins) => 1 + outs.length + (ins.map fun a => a.bytes.length).sum

/-- The addressing mode an encoding of these inputs has: that of the final operands. Without a final operand the mode
bits are ignored (R65), and the encoder writes 0 there (DESIGN CHOICE, log entry 12, safe). -/
def encodingMode (regs : Nat) (ins : List Src) : Mode :=
  match ins.drop regs with
  | [] => .register
  | a :: _ => a.mode

/-- The bytes of an instruction under the parameters `c` (R71), for a well-formed instruction. -/
def encode (c : Config) (i : Instr) : List Byte :=
  match i with
  | .unrecZero => [0]
  | .unrecHigh low => [opcodeByte .register (1#1 ++ low)]
  | i =>
    match i.parts with
    | none => []
    | some (op, outs, ins) =>
      opcodeByte (encodingMode (c.shape op).regs ins) (c.opcodeOf op) :: (outs ++ (ins.map Src.bytes).flatten)

/-- The longest instruction has 13 bytes in any legal SHAPE (a store with three 32-bit final operands) and 7 with the
default one (R70). -/
def maxLength : Nat := 13

/-- The `n` lowest bytes of a number, least significant first. -/
def numberBytes (n w : Nat) : List Byte :=
  (List.range n).map fun k => BitVec.ofNat 8 (w >>> (8 * k))

/-- The instruction the decoder reads, with the default parameters, from an instruction whose bits are `w`, the bits
above `nbits` zero. -/
def decodeTableWord (nbits w : Nat) : Option Instr :=
  match decode Config.default (numberBytes maxLength (w % 2 ^ nbits)) with
  | .ok (i, _) => some i
  | .error _ => none

end Sys2Proof
end

