-- ==== Sys2Proof/Machine/State.lean ====
section
/-! DEFINITION. The state of the bs core as plain data (spec/10_state.md R20, spec/45_system_host.md R156), the outcomes of a
step that are no next state, and the state after reset (R34, spec/70_reset_and_hazards.md R191). -/

namespace Sys2Proof.Machine

/-- The condition flags, the set {EQUAL, LESS, GREATER} (R24). -/
structure Flags where
  equal : Bool
  less : Bool
  greater : Bool
deriving DecidableEq, Repr

/-- The empty set of flags (R24). -/
abbrev Flags.empty : Flags := ⟨false, false, false⟩

/-- The seven fault causes of R171. -/
inductive FaultCause where
  | fetchRange
  | loadRange
  | storeRange
  | divideByZero
  | divideOverflow
  | shiftRange
  | stringLength
deriving DecidableEq, Repr

/-- What a fault records (R171): the cause and one info word. -/
structure FaultRecord where
  cause : FaultCause
  info : Word
deriving DecidableEq, Repr

/-- The run state (R27). -/
inductive RunState where
  | running
  | halted
  | faulted (record : FaultRecord)
deriving DecidableEq, Repr

/-- The kinds of host event (R156). -/
inductive EventKind where
  | console
  | shell
deriving DecidableEq, Repr

/-- A host event: a kind and the bytes handed to the host (R156). -/
structure HostEvent where
  kind : EventKind
  bytes : List Byte
deriving DecidableEq, Repr

/-- The bytes of memory that are not zero, by rising address: an unlisted address reads as 0 (R26, R34). -/
abbrev Memory := List Host.Cell

/-- The state of the machine. -/
structure State where
  /-- The parameters of R9, fixed for the machine: the model's own field (log entry 1). -/
  cfg : Config
  /-- `X`, the 256 general registers (R21). -/
  regs : Vector Word 256
  /-- Whether an instruction has written R255 since reset: R194 lets a stack operation fault "with R255 still 0", and
  spec/93_implementation_defined.md section 1 "before the program sets R255" (DEDUCED, log entry 17). -/
  spWritten : Bool
  /-- The program counter (R23). -/
  pc : Word
  /-- `FLAGS` (R24). -/
  flags : Flags
  /-- `mem` (R26). -/
  mem : Memory
  /-- `run` (R27). -/
  run : RunState
  /-- `exit_code` (R28). -/
  exitCode : Word
  /-- The host port's log, oldest event first (R156). -/
  hostLog : List HostEvent
  /-- An input: the number (from 0) of the event the host never acknowledges, if there is one (R157): the model's own
  field (log entry 7). -/
  hostSilentAt : Option Nat
deriving DecidableEq, Repr

/-- Why a step gives no next state. A fault of the spec is none of these: it is a next state whose `run` is
`faulted` (R172). -/
inductive Fault where
  /-- Raised by `step` on a machine that is `halted` or `faulted`: "no step" (R27, R196). Safe: the machine
  does not go on (log entry 5). -/
  | stopped
  /-- Raised by PRINTLN, PRINT and RUN where the host never acknowledges their event: "the block waits forever at
  that instruction", "a stuck state, not a halt" (R157). Safe: the machine does not go on (log entry 7). -/
  | hostSilent (event : HostEvent)
deriving DecidableEq, Repr

/-- Why an instruction has no meaning in the model. -/
inductive Refusal where
  /-- Raised by an arm of `exec` for an instruction that is not modelled; no arm does. Safe. -/
  | notModelled (mnemonic : String)
deriving DecidableEq, Repr

/-- What a meaning answers. -/
abbrev Result := Host.Outcome State Fault Refusal

/-- The machine right after reset (R34, R191), with the default parameters (R9) and no image loaded (log entry 8).
`hostSilentAt` is none: the host acknowledges every event (DESIGN CHOICE, log entry 7, unsafe). -/
def State.reset : State where
  cfg := Config.default
  regs := Vector.replicate 256 0
  spWritten := false
  pc := 0
  flags := Flags.empty
  mem := []
  run := .running
  exitCode := 1
  hostLog := []
  hostSilentAt := none

end Sys2Proof.Machine
end

