-- ==== Sys2Proof/Machine/Ops.lean ====
section
/-! DEFINITION. The named operations over memory, registers, the run state and the stack (spec/20_memory.md, spec/10_state.md,
spec/43_stack.md), and taking a fault (spec/60_exceptions.md R172). A fault has no return (R177), so there is no operation for one. -/

namespace Sys2Proof.Machine

/-! ### Memory -/

/-- What an unlisted address reads as: the reset content the spec gives (R26, R34). -/
def Memory.unlisted : Byte := 0

/-- The byte at an address. -/
def Memory.read : Memory → Nat → Byte
  | [], _ => Memory.unlisted
  | (k, b) :: rest, a => if k = a then b else Memory.read rest a

/-- One cell in front, unless it holds what an unlisted address reads as. -/
def Memory.cons (a : Nat) (b : Byte) (rest : Memory) : Memory :=
  if b = Memory.unlisted then rest else (a, b) :: rest

/-- Write the byte at an address, keeping the canonical form. -/
def Memory.write : Memory → Nat → Byte → Memory
  | [], a, b => Memory.cons a b []
  | (k, x) :: rest, a, b =>
    if a < k then Memory.cons a b ((k, x) :: rest)
    else if a = k then Memory.cons a b rest
    else (k, x) :: Memory.write rest a b

/-- The canonical form from address `lo` on: addresses rise strictly, and no cell holds what an unlisted
address reads as. -/
def Memory.wfFrom (lo : Nat) : Memory → Bool
  | [] => true
  | (k, b) :: rest => decide (lo ≤ k) && decide (b ≠ Memory.unlisted) && Memory.wfFrom (k + 1) rest

/-- The canonical form of a memory. -/
def Memory.wf (m : Memory) : Bool := Memory.wfFrom 0 m

/-- Every listed address is below `n`. -/
def Memory.below (n : Nat) (m : Memory) : Bool := m.all fun cell => decide (cell.1 < n)

/-- Byte `k` of a word, byte 0 the least significant (R42). -/
def wordByte (w : Word) (k : Nat) : Byte := w.extractLsb' (8 * k) 8

/-- The little-endian word at an address (R42). -/
def Memory.readWord (m : Memory) (a : Nat) : Word :=
  m.read (a + 3) ++ m.read (a + 2) ++ m.read (a + 1) ++ m.read a

/-- Write a little-endian word at an address (R42). -/
def Memory.writeWord (m : Memory) (a : Nat) (w : Word) : Memory :=
  (((m.write a (wordByte w 0)).write (a + 1) (wordByte w 1)).write (a + 2) (wordByte w 2)).write (a + 3) (wordByte w 3)

/-- Write bytes at rising addresses from `a` on. -/
def Memory.writeBytes (m : Memory) (a : Nat) : List Byte → Memory
  | [] => m
  | b :: rest => Memory.writeBytes (m.write a b) (a + 1) rest

/-- `n` bytes at rising addresses from `a` on. -/
def Memory.readBytes (m : Memory) (a n : Nat) : List Byte := (List.range n).map fun k => m.read (a + k)

/-! ### Registers and the other fields -/

/-- `x[i]` (R12). -/
def State.reg (s : State) (i : RegIx) : Word := s.regs[i.toNat]'i.isLt

/-- `SP_INDEX` (R9, R22). -/
def spIndex : RegIx := 255

/-- `x[i] <- v` (R12). No register is hard-wired (R21). -/
def State.setReg (s : State) (i : RegIx) (v : Word) : State :=
  { s with
    regs := s.regs.set i.toNat v i.isLt
    spWritten := s.spWritten || decide (i = spIndex) }

/-- `pc <- v` (R12). -/
def State.setPc (s : State) (v : Word) : State := { s with pc := v }

/-- `FLAGS <- f`. -/
def State.setFlags (s : State) (f : Flags) : State := { s with flags := f }

/-- `mem <- m`. -/
def State.setMem (s : State) (m : Memory) : State := { s with mem := m }

/-- `run <- r`. -/
def State.setRun (s : State) (r : RunState) : State := { s with run := r }

/-- `exit_code <- v`. -/
def State.setExitCode (s : State) (v : Word) : State := { s with exitCode := v }

/-- The host log replaced; `State.emit` is its one user. -/
def State.setHostLog (s : State) (l : List HostEvent) : State := { s with hostLog := l }

/-- The state in which an instruction executes: `pc` has advanced past it, by one for each of its bytes, modulo
2^32 (R23, R45, R61). -/
def State.afterDecode (s : State) (i : Instr) : State := s.setPc (s.pc + BitVec.ofNat 32 i.length)

/-! ### Faults and halts -/

/-- The cause codes of R171; 0 is no fault. -/
def FaultCause.code : FaultCause → Nat
  | .fetchRange => 1
  | .loadRange => 2
  | .storeRange => 3
  | .divideByZero => 4
  | .divideOverflow => 5
  | .shiftRange => 6
  | .stringLength => 7

/-- The cause code that `run` shows: 0 where there is no fault (R171). -/
def RunState.faultCode : RunState → Nat
  | .faulted r => r.cause.code
  | _ => 0

/-- Taking a fault: the state before the instruction, apart from `run` (R172). `s` is that state, its `pc` is
`pc0`. -/
def State.raise (s : State) (r : FaultRecord) : State := s.setRun (.faulted r)

/-- The end of an instruction: the state it made, or the fault it raised in the state `s` before it, of which every
effect is discarded (R172, R196). -/
def State.settle (s : State) : Except FaultRecord State → Result
  | .ok t => .next t
  | .error r => .next (s.raise r)

/-- `halt` (R13, R174). -/
def State.halt (s : State) : State := s.setRun .halted

/-! ### Checked accesses -/

/-- An access of `n` bytes at `a` is legal (R44): read as signed, on unbounded integers. -/
def State.legal (s : State) (a : Word) (n : Nat) : Bool :=
  decide (0 ≤ a.toInt ∧ a.toInt + n ≤ s.cfg.memSize)

/-- `MemRead(a, 1)` (R12, R44). -/
def State.loadByte (s : State) (a : Word) : Except FaultRecord Byte :=
  if s.legal a 1 then .ok (s.mem.read a.toNat) else .error ⟨.loadRange, a⟩

/-- `MemRead(a, 4)` (R12, R42, R44). -/
def State.loadWord (s : State) (a : Word) : Except FaultRecord Word :=
  if s.legal a 4 then .ok (s.mem.readWord a.toNat) else .error ⟨.loadRange, a⟩

/-- `MemWrite(a, 1, b)` (R12, R44). -/
def State.storeByte (s : State) (a : Word) (b : Byte) : Except FaultRecord State :=
  if s.legal a 1 then .ok (s.setMem (s.mem.write a.toNat b)) else .error ⟨.storeRange, a⟩

/-- `MemWrite(a, 4, w)` (R12, R42, R44): checked whole before a byte is written. -/
def State.storeWord (s : State) (a : Word) (w : Word) : Except FaultRecord State :=
  if s.legal a 4 then .ok (s.setMem (s.mem.writeWord a.toNat w)) else .error ⟨.storeRange, a⟩

/-! ### The stack -/

/-- Where a push stores: `x[255] -32 4` (R50). -/
def State.pushAddress (s : State) : Word := s.reg spIndex - 4

/-- The push of PUSH and JSR (R102, R125): the store first, then the new stack pointer. -/
def State.pushWord (s : State) (w : Word) : Except FaultRecord State :=
  match s.storeWord s.pushAddress w with
  | .ok t => .ok (t.setReg spIndex s.pushAddress)
  | .error r => .error r

/-- R255 is still 0: no instruction has written it, and it holds its reset value (R194, log entry 17). -/
def State.spStillZero (s : State) : Bool := !s.spWritten && decide (s.reg spIndex = 0)

/-- The word a pop of RTS and POP reads (R103, R126). With R255 still 0 a stack operation faults (R194): here with
LOAD_RANGE, although the four bytes at 0 are in memory. A push needs no such test, its address is then -4 (R50). -/
def State.topWord (s : State) : Except FaultRecord Word :=
  if s.spStillZero then .error ⟨.loadRange, s.reg spIndex⟩ else s.loadWord (s.reg spIndex)

/-- `x[255] <- x[255] +32 4` (R103, R126). -/
def State.dropWord (s : State) : State := s.setReg spIndex (s.reg spIndex + 4)

end Sys2Proof.Machine
end

