-- ==== Sys2Proof/Machine/Operands.lean ====
section
/-! DEFINITION. Resolving operands (spec/30_encoding.md R64) and the addresses made from them (spec/40_move_load_store.md R90). The
state is the one before the instruction: its `pc` is `pc0`, and its registers are those Decode() reads (R61). -/

namespace Sys2Proof.Machine

/-- `sext_8` (R11). -/
def sext8 (b : Byte) : Word := b.signExtend 32

/-- `zext_8` (R11). -/
def zext8 (b : Byte) : Word := b.setWidth 32

/-- `Resolve(mode, pc0)` (R64), and the value of a register input operand (R61). -/
def State.value (s : State) : Src → Word
  | .reg i => s.reg i
  | .imm8 b => sext8 b
  | .pcrel8 d => s.pc + sext8 d
  | .imm32 w => w

/-- `ea = base +32 off` (R90). -/
def State.effectiveAddress (s : State) (base off : Src) : Word := s.value base + s.value off

end Sys2Proof.Machine
end

