-- ==== Sys2Proof/Machine/Alu.lean ====
section
/-! DEFINITION. The meanings of the ten arithmetic and logic instructions (spec/44_alu.md). -/

namespace Sys2Proof.Machine

/-- The common form `x[Rd] <- f(x[Rd], v)` (R130), where the operation may raise a fault. -/
def State.alu (s : State) (i : Instr) (rd : RegIx) (r : Except FaultRecord Word) : Result :=
  s.settle <|
    match r with
    | .ok w => .ok ((s.afterDecode i).setReg rd w)
    | .error e => .error e

/-- The pair that has no quotient in 32 bits (R135, R136): -2^31 and -1. -/
def divOverflows (a v : Word) : Bool := decide (a.toInt = -2 ^ 31 ∧ v.toInt = -1)

/-- `trunc(s(a) / s(v))`, with the faults of R135. -/
def quotient (c : Config) (a v : Word) : Except FaultRecord Word :=
  if v.toInt = 0 then .error ⟨.divideByZero, 0⟩
  else if divOverflows a v then
    match c.divOverflow with
    | .fault => .error ⟨.divideOverflow, 0⟩
    | .wrap => .ok 0x80000000
  else .ok (BitVec.ofInt 32 (a.toInt.tdiv v.toInt))

/-- `s(a) - trunc(s(a) / s(v)) * s(v)`, with the faults of R136. -/
def remainder (c : Config) (a v : Word) : Except FaultRecord Word :=
  if v.toInt = 0 then .error ⟨.divideByZero, 0⟩
  else if divOverflows a v then
    match c.divOverflow with
    | .fault => .error ⟨.divideOverflow, 0⟩
    | .wrap => .ok 0
  else .ok (BitVec.ofInt 32 (a.toInt - a.toInt.tdiv v.toInt * v.toInt))

/-- The shift amount, with the fault of R140 and R141 for one outside 0..31. -/
def shiftAmount (c : Config) (v : Word) : Except FaultRecord Nat :=
  if v.toInt < 0 ∨ 31 < v.toInt then
    match c.shiftRange with
    | .fault => .error ⟨.shiftRange, v⟩
    | .mask5 => .ok (v.extractLsb' 0 5).toNat
  else .ok v.toNat

/-- `(u(a) * 2^n) mod 2^32` (R140). -/
def shiftLeft (c : Config) (a v : Word) : Except FaultRecord Word :=
  match shiftAmount c v with
  | .ok n => .ok (BitVec.ofNat 32 (a.toNat * 2 ^ n))
  | .error e => .error e

/-- `floor(s(a) / 2^n)` (R141): `/` on Int rounds down for a positive divisor. -/
def shiftRight (c : Config) (a v : Word) : Except FaultRecord Word :=
  match shiftAmount c v with
  | .ok n => .ok (BitVec.ofInt 32 (a.toInt / 2 ^ n))
  | .error e => .error e

/-- ADD (R132). -/
def execAdd (rd : RegIx) (v : Src) (s : State) : Result := s.alu (.add rd v) rd (.ok (s.reg rd + s.value v))

/-- SUB (R133). -/
def execSub (rd : RegIx) (v : Src) (s : State) : Result := s.alu (.sub rd v) rd (.ok (s.reg rd - s.value v))

/-- MUL (R134). -/
def execMul (rd : RegIx) (v : Src) (s : State) : Result := s.alu (.mul rd v) rd (.ok (s.reg rd * s.value v))

/-- DIV (R135). -/
def execDiv (rd : RegIx) (v : Src) (s : State) : Result :=
  s.alu (.div rd v) rd (quotient s.cfg (s.reg rd) (s.value v))

/-- MOD (R136). -/
def execMod (rd : RegIx) (v : Src) (s : State) : Result :=
  s.alu (.mod rd v) rd (remainder s.cfg (s.reg rd) (s.value v))

/-- AND (R137). -/
def execAnd (rd : RegIx) (v : Src) (s : State) : Result := s.alu (.and rd v) rd (.ok (s.reg rd &&& s.value v))

/-- OR (R138). -/
def execOr (rd : RegIx) (v : Src) (s : State) : Result := s.alu (.or rd v) rd (.ok (s.reg rd ||| s.value v))

/-- XOR (R139). -/
def execXor (rd : RegIx) (v : Src) (s : State) : Result := s.alu (.xor rd v) rd (.ok (s.reg rd ^^^ s.value v))

/-- SHL (R140). -/
def execShl (rd : RegIx) (v : Src) (s : State) : Result :=
  s.alu (.shl rd v) rd (shiftLeft s.cfg (s.reg rd) (s.value v))

/-- SHR (R141). -/
def execShr (rd : RegIx) (v : Src) (s : State) : Result :=
  s.alu (.shr rd v) rd (shiftRight s.cfg (s.reg rd) (s.value v))

end Sys2Proof.Machine
end

