-- ==== Sys2Proof/Machine/Flags.lean ====
section
/-! DEFINITION. The condition flags: what CMP sets (spec/42_compare.md R120), what the branches test (spec/41_control.md R104), and
the layout of R25. -/

namespace Sys2Proof.Machine

/-- The flags of a signed comparison: exactly one is set (R120). -/
def compareFlags (a b : Word) : Flags :=
  if a.toInt = b.toInt then ⟨true, false, false⟩
  else if a.toInt < b.toInt then ⟨false, true, false⟩
  else ⟨false, false, true⟩

/-- `EQUAL in FLAGS` (BEQ, R105). -/
def Flags.isEq (f : Flags) : Bool := f.equal

/-- `EQUAL not in FLAGS` (BNE, R106). -/
def Flags.isNe (f : Flags) : Bool := !f.equal

/-- `LESS in FLAGS` (BLT, R107). -/
def Flags.isLt (f : Flags) : Bool := f.less

/-- `LESS in FLAGS or EQUAL in FLAGS` (BLE, R108). -/
def Flags.isLe (f : Flags) : Bool := f.less || f.equal

/-- `GREATER in FLAGS` (BGT, R109). -/
def Flags.isGt (f : Flags) : Bool := f.greater

/-- `GREATER in FLAGS or EQUAL in FLAGS` (BGE, R110). -/
def Flags.isGe (f : Flags) : Bool := f.greater || f.equal

/-- The layout of R25, where one is needed: bit 0 EQUAL, bit 1 LESS, bit 2 GREATER. No instruction reads it. -/
def Flags.bits (f : Flags) : BitVec 3 :=
  BitVec.ofBool f.greater ++ BitVec.ofBool f.less ++ BitVec.ofBool f.equal

/-- The reachable values of FLAGS (R25): at most one flag is set. -/
def Flags.reachable (f : Flags) : Bool := decide (f.bits = 0 ∨ f.bits = 1 ∨ f.bits = 2 ∨ f.bits = 4)

end Sys2Proof.Machine
end

