-- ==== Sys2Proof/Machine/Compare.lean ====
section
/-! DEFINITION. The meaning of CMP (spec/42_compare.md). -/

namespace Sys2Proof.Machine

/-- CMP (R120). -/
def execCmp (a b : Src) (s : State) : Result :=
  .next ((s.afterDecode (.cmp a b)).setFlags (compareFlags (s.value a) (s.value b)))

end Sys2Proof.Machine
end

