-- ==== Sys2Proof/Machine/Control.lean ====
section
/-! DEFINITION. The meanings of JMP, JSR, RTS and the six conditional branches (spec/41_control.md). -/

namespace Sys2Proof.Machine

/-- A branch (R104): `pc` is the target where the condition holds, else it stays at the next instruction. The target is
not checked (R100). -/
def State.branch (s : State) (i : Instr) (addr : Src) (taken : Bool) : State :=
  if taken then (s.afterDecode i).setPc (s.value addr) else s.afterDecode i

/-- JMP (R101). -/
def execJmp (addr : Src) (s : State) : Result := .next ((s.afterDecode (.jmp addr)).setPc (s.value addr))

/-- JSR (R102): the return address is the post-decode pc, the target was resolved before the push. -/
def execJsr (addr : Src) (s : State) : Result :=
  s.settle <|
    match (s.afterDecode (.jsr addr)).pushWord (s.afterDecode (.jsr addr)).pc with
    | .ok t => .ok (t.setPc (s.value addr))
    | .error r => .error r

/-- RTS (R103, R194). -/
def execRts (s : State) : Result :=
  s.settle <|
    match s.topWord with
    | .ok ra => .ok ((s.afterDecode .rts).dropWord.setPc ra)
    | .error r => .error r

/-- BEQ (R105). -/
def execBeq (addr : Src) (s : State) : Result := .next (s.branch (.beq addr) addr s.flags.isEq)

/-- BNE (R106). -/
def execBne (addr : Src) (s : State) : Result := .next (s.branch (.bne addr) addr s.flags.isNe)

/-- BLT (R107). -/
def execBlt (addr : Src) (s : State) : Result := .next (s.branch (.blt addr) addr s.flags.isLt)

/-- BLE (R108). -/
def execBle (addr : Src) (s : State) : Result := .next (s.branch (.ble addr) addr s.flags.isLe)

/-- BGT (R109). -/
def execBgt (addr : Src) (s : State) : Result := .next (s.branch (.bgt addr) addr s.flags.isGt)

/-- BGE (R110). -/
def execBge (addr : Src) (s : State) : Result := .next (s.branch (.bge addr) addr s.flags.isGe)

end Sys2Proof.Machine
end

