-- ==== Sys2Proof/Machine/HostPort.lean ====
section
/-! DEFINITION. EXIT, the unrecognized opcodes, and the host instructions PRINTLN, PRINT and RUN with the host port
(spec/45_system_host.md). -/

namespace Sys2Proof.Machine

/-- `ExtractString(addr)` (R152): the length word, then the payload checked whole, then its bytes. -/
def State.extractString (s : State) (addr : Word) : Except FaultRecord (List Byte) :=
  match s.loadWord addr with
  | .error r => .error r
  | .ok len =>
    if len.toInt < 0 then .error ⟨.stringLength, len⟩
    else if s.legal (addr + 4) len.toNat then .ok (s.mem.readBytes (addr + 4).toNat len.toNat)
    else .error ⟨.loadRange, addr + 4⟩

/-- `emit` (R156): the event is appended to the log and the instruction completes once the host has acknowledged it; a
host that never does leaves the machine stuck (R157; log entry 7). -/
def State.emit (s : State) (e : HostEvent) : Result :=
  if s.hostSilentAt = some s.hostLog.length then .fault (.hostSilent e)
  else .next (s.setHostLog (s.hostLog ++ [e]))

/-- A host instruction: read the string at `addr` and hand the host the event made of it (R153, R154, R155). -/
def State.hostCall (s : State) (i : Instr) (addr : Src) (event : List Byte → HostEvent) : Result :=
  match s.extractString (s.value addr) with
  | .ok bytes => (s.afterDecode i).emit (event bytes)
  | .error r => .next (s.raise r)

/-- The newline byte (R153; log entry 14). -/
def newline : Byte := 0x0A

/-- EXIT (R150). -/
def execExit (code : Src) (s : State) : Result :=
  .next ((s.afterDecode (.exit code)).setExitCode (s.value code)).halt

/-- Opcode 0 (R151). -/
def execUnrecZero (s : State) : Result := .next (s.afterDecode .unrecZero).halt

/-- Opcodes 32..63 (R151). -/
def execUnrecHigh (low : BitVec 5) (s : State) : Result := .next (s.afterDecode (.unrecHigh low)).halt

/-- PRINTLN (R153). -/
def execPrintln (a : Src) (s : State) : Result :=
  s.hostCall (.println a) a fun bytes => ⟨.console, bytes ++ [newline]⟩

/-- PRINT (R154). -/
def execPrint (a : Src) (s : State) : Result := s.hostCall (.print a) a fun bytes => ⟨.console, bytes⟩

/-- RUN (R155): the bytes verbatim; nothing of the shell's result comes back. -/
def execRun (a : Src) (s : State) : Result := s.hostCall (.run a) a fun bytes => ⟨.shell, bytes⟩

end Sys2Proof.Machine
end

