-- ==== Sys2Proof/Machine/Move.lean ====
section
/-! DEFINITION. The meanings of MOV, LDB, LDW, STB and STW (spec/40_move_load_store.md). -/

namespace Sys2Proof.Machine

/-- MOV (R91). -/
def execMov (rd : RegIx) (v : Src) (s : State) : Result :=
  .next ((s.afterDecode (.mov rd v)).setReg rd (s.value v))

/-- LDB (R92): zero-extended. -/
def execLdb (rd : RegIx) (base off : Src) (s : State) : Result :=
  s.settle <|
    match s.loadByte (s.effectiveAddress base off) with
    | .ok b => .ok ((s.afterDecode (.ldb rd base off)).setReg rd (zext8 b))
    | .error r => .error r

/-- LDW (R93). -/
def execLdw (rd : RegIx) (base off : Src) (s : State) : Result :=
  s.settle <|
    match s.loadWord (s.effectiveAddress base off) with
    | .ok w => .ok ((s.afterDecode (.ldw rd base off)).setReg rd w)
    | .error r => .error r

/-- STB (R94): bits 7:0 of the value. -/
def execStb (v base off : Src) (s : State) : Result :=
  s.settle ((s.afterDecode (.stb v base off)).storeByte (s.effectiveAddress base off) (wordByte (s.value v) 0))

/-- STW (R95). -/
def execStw (v base off : Src) (s : State) : Result :=
  s.settle ((s.afterDecode (.stw v base off)).storeWord (s.effectiveAddress base off) (s.value v))

end Sys2Proof.Machine
end

