-- ==== Sys2Proof/Machine/Stack.lean ====
section
/-! DEFINITION. The meanings of PUSH and POP (spec/43_stack.md). -/

namespace Sys2Proof.Machine

/-- PUSH (R125): the value was resolved before the decrement. -/
def execPush (v : Src) (s : State) : Result :=
  s.settle ((s.afterDecode (.push v)).pushWord (s.value v))

/-- POP (R126, R194): the increment reads R255 after the write of `rd`, so POP R255 leaves the word plus 4. -/
def execPop (rd : RegIx) (s : State) : Result :=
  s.settle <|
    match s.topWord with
    | .ok w => .ok ((s.afterDecode (.pop rd)).setReg rd w).dropWord
    | .error r => .error r

end Sys2Proof.Machine
end

