-- ==== Sys2Proof/Machine/Dispatch.lean ====
section
/-! DEFINITION. What each instruction does, one arm per constructor of Instr. -/

namespace Sys2Proof.Machine

/-- `Execute(d)` (spec/70_reset_and_hazards.md R196). The state is the one before the instruction, its `pc` is `pc0`. -/
def exec (i : Instr) (s : State) : Host.Outcome State Fault Refusal :=
  match i with
  | .unrecZero => Sys2Proof.Machine.execUnrecZero s
  | .mov rd v => Sys2Proof.Machine.execMov rd v s
  | .ldb rd base off => Sys2Proof.Machine.execLdb rd base off s
  | .ldw rd base off => Sys2Proof.Machine.execLdw rd base off s
  | .stb v base off => Sys2Proof.Machine.execStb v base off s
  | .stw v base off => Sys2Proof.Machine.execStw v base off s
  | .jmp addr => Sys2Proof.Machine.execJmp addr s
  | .jsr addr => Sys2Proof.Machine.execJsr addr s
  | .rts => Sys2Proof.Machine.execRts s
  | .beq addr => Sys2Proof.Machine.execBeq addr s
  | .bne addr => Sys2Proof.Machine.execBne addr s
  | .blt addr => Sys2Proof.Machine.execBlt addr s
  | .ble addr => Sys2Proof.Machine.execBle addr s
  | .bgt addr => Sys2Proof.Machine.execBgt addr s
  | .bge addr => Sys2Proof.Machine.execBge addr s
  | .cmp a b => Sys2Proof.Machine.execCmp a b s
  | .push v => Sys2Proof.Machine.execPush v s
  | .pop rd => Sys2Proof.Machine.execPop rd s
  | .add rd v => Sys2Proof.Machine.execAdd rd v s
  | .sub rd v => Sys2Proof.Machine.execSub rd v s
  | .mul rd v => Sys2Proof.Machine.execMul rd v s
  | .div rd v => Sys2Proof.Machine.execDiv rd v s
  | .mod rd v => Sys2Proof.Machine.execMod rd v s
  | .and rd v => Sys2Proof.Machine.execAnd rd v s
  | .or rd v => Sys2Proof.Machine.execOr rd v s
  | .xor rd v => Sys2Proof.Machine.execXor rd v s
  | .shl rd v => Sys2Proof.Machine.execShl rd v s
  | .shr rd v => Sys2Proof.Machine.execShr rd v s
  | .exit code => Sys2Proof.Machine.execExit code s
  | .println a => Sys2Proof.Machine.execPrintln a s
  | .print a => Sys2Proof.Machine.execPrint a s
  | .run a => Sys2Proof.Machine.execRun a s
  | .unrecHigh low => Sys2Proof.Machine.execUnrecHigh low s

end Sys2Proof.Machine
end

