-- ==== Sys2Proof/Machine/Fetch.lean ====
section
/-! DEFINITION. Fetching an instruction's bytes and decoding them (spec/30_encoding.md R60, R61). -/

namespace Sys2Proof.Machine

/-- The bytes that `n` calls of `Fetch8` from `a` on read, up to the first one outside memory (R60). -/
def State.fetchBytes (s : State) (a : Word) : Nat → List Byte
  | 0 => []
  | n + 1 => if s.legal a 1 then s.mem.read a.toNat :: s.fetchBytes (a + 1) n else []

/-- The bytes at `pc`, as many as the longest instruction has. -/
def State.fetchWindow (s : State) : List Byte := s.fetchBytes s.pc maxLength

/-- `Decode()` at `pc` (R61): the instruction, or `FETCH_RANGE` with the address of the first byte that could not be
fetched (R171, R173). The decoder runs out of bytes only where the window ends before its full length, so that
byte is the first after the window (DEDUCED, log entry 10, safe). -/
def State.fetchInstr (s : State) : Except FaultRecord Instr :=
  match decode s.cfg s.fetchWindow with
  | .ok (i, _) => .ok i
  | .error .truncated => .error ⟨.fetchRange, s.pc + BitVec.ofNat 32 s.fetchWindow.length⟩

/-- The bytes stored from `a` on, those outside memory left out. -/
def State.placeBytes (s : State) (a : Word) : List Byte → State
  | [] => s
  | b :: rest => (if s.legal a 1 then s.setMem (s.mem.write a.toNat b) else s).placeBytes (a + 1) rest

end Sys2Proof.Machine
end

