-- ==== Sys2Proof/Machine/Step.lean ====
section
/-! DEFINITION. One step of the machine (spec/70_reset_and_hazards.md R196). -/

namespace Sys2Proof.Machine

/-- `Step()` (R196): a machine that is not running makes no step, a fetch fault is taken like any other, and the decoded
instruction executes. -/
def step (s : State) : Host.Outcome State Fault Refusal :=
  match s.run with
  | .running =>
    match s.fetchInstr with
    | .ok i => exec i s
    | .error r => .next (s.raise r)
  | .halted | .faulted _ => .fault .stopped

/-- `s` with the instruction whose bits are `w`, the bits above `nbits` zero, stored at `pc`, where `step` fetches. -/
def State.withFetchWord (s : State) (nbits w : Nat) : State :=
  s.placeBytes s.pc (numberBytes maxLength (w % 2 ^ nbits))

end Sys2Proof.Machine
end

