-- ==== Sys2Proof/Machine/Loader.lean ====
section
/-! DEFINITION. The loader (spec/70_reset_and_hazards.md R192, R193) and the start of the machine with an image (R191). A packed
image is the list of its characters' code points. -/

namespace Sys2Proof.Machine

/-- One group of three characters: refused outside the ranges of R193, else its two bytes (R192). -/
def unpackGroup (c1 c2 c3 : Nat) : Option (Byte × Byte) :=
  if 40 ≤ c1 ∧ c1 ≤ 103 ∧ 40 ≤ c2 ∧ c2 ≤ 71 ∧ 40 ≤ c3 ∧ c3 ≤ 71 then
    let d1 : BitVec 6 := BitVec.ofNat 6 (c1 - 40)
    let d2 : BitVec 5 := BitVec.ofNat 5 (c2 - 40)
    let d3 : BitVec 5 := BitVec.ofNat 5 (c3 - 40)
    some (d1 ++ d2.extractLsb' 3 2, d2.extractLsb' 0 3 ++ d3)
  else none

/-- The bytes of a packed image; none where its length is no multiple of 3 or a character is out of range (R192, R193). -/
def unpack : List Nat → Option (List Byte)
  | [] => some []
  | c1 :: c2 :: c3 :: rest =>
    match unpackGroup c1 c2 c3, unpack rest with
    | some (b1, b2), some bytes => some (b1 :: b2 :: bytes)
    | _, _ => none
  | _ => none

/-- The three characters of two bytes, the inverse of `unpackGroup` (R192). -/
def packGroup (b1 b2 : Byte) : List Nat :=
  [(b1.extractLsb' 2 6).toNat + 40, (b1.extractLsb' 0 2 ++ b2.extractLsb' 5 3).toNat + 40, (b2.extractLsb' 0 5).toNat + 40]

/-- The packed image of an even number of bytes (R192). -/
def pack : List Byte → List Nat
  | b1 :: b2 :: rest => packGroup b1 b2 ++ pack rest
  | _ => []

/-- The bytes the loader writes to memory; none where it refuses the image (R193). -/
def loadImage (c : Config) (image : List Nat) : Option (List Byte) :=
  match unpack image with
  | some bytes => if bytes.length ≤ c.memSize then some bytes else none
  | none => none

/-- Reset with an image (R191): memory zero, then the image's bytes from address 0 on; none where the loader refuses
the image and "the block does not start". -/
def State.boot (c : Config) (image : List Nat) : Option State :=
  (loadImage c image).map fun bytes => { State.reset with cfg := c, mem := Memory.writeBytes [] 0 bytes }

end Sys2Proof.Machine
end

