-- ==== Sys2Proof/Safety.lean ====
section
/-! DEFINITION. The terms in which claims are made: the invariant of the machine, what an instruction may change (its frame), and
a run of stack instructions. -/

namespace Sys2Proof.Machine

/-! ### The invariant -/

/-- The parameters are legal (spec/00_scope.md R9), the memory has its canonical form and no byte outside
0..MEM_SIZE-1 (R26, R41), FLAGS has a reachable value (R25), the exit code is 1 until an EXIT (R28), and R255 holds its
reset value until it is written (R34, R194). -/
abbrev State.Inv (s : State) : Prop :=
  s.cfg.Legal ∧ s.mem.wf = true ∧ s.mem.below s.cfg.memSize = true ∧ s.flags.reachable = true ∧
    (s.run ≠ .halted → s.exitCode = 1) ∧ (s.spWritten = false → s.reg spIndex = 0)

/-- A run ends safely when it halts: a faulted machine ended abnormally (R157, R200). -/
abbrev State.EndsSafely (s : State) : Prop := s.run = .halted

/-! ### Frames -/

/-- Every register outside `rs` is unchanged, and where R255 is one of these, so is whether it was ever written. -/
def RegsKept (rs : List RegIx) (s t : State) : Prop :=
  (∀ r, r ∉ rs → t.reg r = s.reg r) ∧ (spIndex ∉ rs → t.spWritten = s.spWritten)

/-- Every byte of memory is unchanged. -/
def MemSame (s t : State) : Prop := ∀ b, t.mem.read b = s.mem.read b

/-- Every byte of memory outside the `n` bytes from `a` on is unchanged. -/
def MemKept (a n : Nat) (s t : State) : Prop := ∀ b, b < a ∨ a + n ≤ b → t.mem.read b = s.mem.read b

/-- Everything but the registers, the pc, FLAGS and the memory is unchanged. -/
def OutputsKept (s t : State) : Prop :=
  t.cfg = s.cfg ∧ t.run = s.run ∧ t.exitCode = s.exitCode ∧ t.hostLog = s.hostLog ∧ t.hostSilentAt = s.hostSilentAt

/-- Only the pc and the registers `rs` may differ: the frame of an instruction that stores nothing and is no CMP. -/
def OnlyRegs (rs : List RegIx) (s t : State) : Prop :=
  RegsKept rs s t ∧ MemSame s t ∧ t.flags = s.flags ∧ OutputsKept s t

/-- Only the pc, the registers `rs` and the `n` bytes from `a` on may differ: the frame of a storing instruction. -/
def OnlyRegsAndBytes (rs : List RegIx) (a n : Nat) (s t : State) : Prop :=
  RegsKept rs s t ∧ MemKept a n s t ∧ t.flags = s.flags ∧ OutputsKept s t

/-- Only FLAGS and the pc may differ: the frame of CMP. -/
def OnlyFlags (s t : State) : Prop := RegsKept [] s t ∧ MemSame s t ∧ OutputsKept s t

/-- Only the pc and the run state may differ: the frame of an unrecognized opcode. -/
def OnlyRun (s t : State) : Prop :=
  RegsKept [] s t ∧ MemSame s t ∧ t.flags = s.flags ∧ t.cfg = s.cfg ∧ t.exitCode = s.exitCode ∧
    t.hostLog = s.hostLog ∧ t.hostSilentAt = s.hostSilentAt

/-- Only the pc, the run state and the exit code may differ: the frame of EXIT. -/
def OnlyRunAndExitCode (s t : State) : Prop :=
  RegsKept [] s t ∧ MemSame s t ∧ t.flags = s.flags ∧ t.cfg = s.cfg ∧ t.hostLog = s.hostLog ∧
    t.hostSilentAt = s.hostSilentAt

/-- Only the pc and the host log may differ: the frame of PRINTLN, PRINT and RUN. -/
def OnlyHostLog (s t : State) : Prop :=
  RegsKept [] s t ∧ MemSame s t ∧ t.flags = s.flags ∧ t.cfg = s.cfg ∧ t.run = s.run ∧ t.exitCode = s.exitCode ∧
    t.hostSilentAt = s.hostSilentAt

/-- The next state changed by a function, every other outcome as it is. -/
def mapNext (f : State → State) : Result → Result
  | .next t => .next (f t)
  | .fault r => .fault r
  | .refused r => .refused r

/-! ### Where the bytes of an instruction stand -/

/-- The bytes stand in memory from the pc on (R60). -/
def BytesAtPc (s : State) (bytes : List Byte) : Prop :=
  ∀ k (h : k < bytes.length), s.legal (s.pc + BitVec.ofNat 32 k) 1 = true ∧
    s.mem.read (s.pc + BitVec.ofNat 32 k).toNat = bytes[k]

/-- Format FOV with opcode number `n`, under the default parameters: the opcode byte `mode*64 + n`, the output register,
the final operand; length 3, or 6 in mode 3 (R71). -/
def EncodedFOV (n : Nat) (f : RegIx → Src → Instr) : Prop :=
  ∀ (rd : RegIx) (v : Src) (rest : List Byte),
    decode Config.default (BitVec.ofNat 8 (v.mode.toBits.toNat * 64 + n) :: rd :: (v.bytes ++ rest)) = .ok (f rd v, rest) ∧
      (f rd v).length = if v.mode = .immediate32 then 6 else 3

/-- Format F1 with opcode number `n`, under the default parameters: the opcode byte `mode*64 + n`, the final operand;
length 2, or 5 in mode 3 (R71). -/
def EncodedF1 (n : Nat) (f : Src → Instr) : Prop :=
  ∀ (v : Src) (rest : List Byte),
    decode Config.default (BitVec.ofNat 8 (v.mode.toBits.toNat * 64 + n) :: (v.bytes ++ rest)) = .ok (f v, rest) ∧
      (f v).length = if v.mode = .immediate32 then 5 else 2

/-- Format F0 with opcode number `n`, under the default parameters: the opcode byte alone, in every mode (R65, R71). -/
def EncodedF0 (n : Nat) (i : Instr) : Prop :=
  ∀ (m : BitVec 2) (rest : List Byte),
    decode Config.default (BitVec.ofNat 8 (m.toNat * 64 + n) :: rest) = .ok (i, rest) ∧ i.length = 1

/-- Format FO with opcode number `n`, under the default parameters: the opcode byte, in every mode, and the output register;
length 2 (R65, R71). -/
def EncodedFO (n : Nat) (f : RegIx → Instr) : Prop :=
  ∀ (m : BitVec 2) (rd : RegIx) (rest : List Byte),
    decode Config.default (BitVec.ofNat 8 (m.toNat * 64 + n) :: rd :: rest) = .ok (f rd, rest) ∧ (f rd).length = 2

/-- Format FRV with opcode number `n`, under the default parameters: the opcode byte, the register input, the final operand;
length 3, or 6 in mode 3 (R71). -/
def EncodedFRV (n : Nat) (f : Src → Src → Instr) : Prop :=
  ∀ (r : RegIx) (v : Src) (rest : List Byte),
    decode Config.default (BitVec.ofNat 8 (v.mode.toBits.toNat * 64 + n) :: r :: (v.bytes ++ rest)) =
        .ok (f (.reg r) v, rest) ∧
      (f (.reg r) v).length = if v.mode = .immediate32 then 6 else 3

/-- Format FORV with opcode number `n`, under the default parameters: the opcode byte, the output register, the register
input, the final operand; length 4, or 7 in mode 3 (R71). -/
def EncodedFORV (n : Nat) (f : RegIx → Src → Src → Instr) : Prop :=
  ∀ (rd r : RegIx) (v : Src) (rest : List Byte),
    decode Config.default (BitVec.ofNat 8 (v.mode.toBits.toNat * 64 + n) :: rd :: r :: (v.bytes ++ rest)) =
        .ok (f rd (.reg r) v, rest) ∧
      (f rd (.reg r) v).length = if v.mode = .immediate32 then 7 else 4

/-- Format FRRV with opcode number `n`, under the default parameters: the opcode byte, the two register inputs, the final
operand; length 4, or 7 in mode 3 (R71). -/
def EncodedFRRV (n : Nat) (f : Src → Src → Src → Instr) : Prop :=
  ∀ (r q : RegIx) (v : Src) (rest : List Byte),
    decode Config.default (BitVec.ofNat 8 (v.mode.toBits.toNat * 64 + n) :: r :: q :: (v.bytes ++ rest)) =
        .ok (f (.reg r) (.reg q) v, rest) ∧
      (f (.reg r) (.reg q) v).length = if v.mode = .immediate32 then 7 else 4

/-! ### Kinds of instruction -/

/-- An instruction that reads FLAGS (R104). -/
def readsFlags : Instr → Bool
  | .beq _ | .bne _ | .blt _ | .ble _ | .bgt _ | .bge _ => true
  | _ => false

/-- The instructions that halt the machine (R174). -/
def halts : Instr → Bool
  | .exit _ | .unrecZero | .unrecHigh _ => true
  | _ => false

/-- CMP, the one instruction that writes FLAGS (R24). -/
def isCmp : Instr → Bool
  | .cmp _ _ => true
  | _ => false

/-- EXIT, the one instruction that writes the exit code (R28). -/
def isExit : Instr → Bool
  | .exit _ => true
  | _ => false

/-- The host instructions (R153, R154, R155). -/
def callsHost : Instr → Bool
  | .println _ | .print _ | .run _ => true
  | _ => false

/-- The registers an instruction may write: its output registers, and R255 for PUSH, POP, JSR and RTS (R22). -/
def writesRegs : Instr → List RegIx
  | .mov rd _ | .ldb rd _ _ | .ldw rd _ _ => [rd]
  | .add rd _ | .sub rd _ | .mul rd _ | .div rd _ | .mod rd _ => [rd]
  | .and rd _ | .or rd _ | .xor rd _ | .shl rd _ | .shr rd _ => [rd]
  | .push _ | .jsr _ | .rts => [spIndex]
  | .pop rd => [rd, spIndex]
  | _ => []

/-- The address and the number of the bytes an instruction stores to, where it is a storing instruction (R47). -/
def stores (s : State) : Instr → Option (Word × Nat)
  | .stb _ base off => some (s.effectiveAddress base off, 1)
  | .stw _ base off => some (s.effectiveAddress base off, 4)
  | .push _ | .jsr _ => some (s.pushAddress, 4)
  | _ => none

/-- The word whose bytes, the least significant first, a storing instruction stores (R94, R95, R102, R125). -/
def storedWord (s : State) : Instr → Option Word
  | .stb v _ _ | .stw v _ _ | .push v => some (s.value v)
  | .jsr addr => some (s.pc + BitVec.ofNat 32 (Instr.jsr addr).length)
  | _ => none

/-- The event a host instruction makes of its string: its kind and its bytes (R153, R154, R155). -/
def hostEvent : Instr → Option (Src × (List Byte → HostEvent))
  | .println a => some (a, fun bytes => ⟨.console, bytes ++ [0x0A]⟩)
  | .print a => some (a, fun bytes => ⟨.console, bytes⟩)
  | .run a => some (a, fun bytes => ⟨.shell, bytes⟩)
  | _ => none

/-! ### Sequences of stack instructions -/

/-- The state after executing instructions one after the other, where each gives a next state and none faults or halts. -/
def execList : List Instr → State → Option State
  | [], s => some s
  | i :: rest, s =>
    match exec i s with
    | .next t => if t.run = .running then execList rest t else none
    | _ => none

/-- A balanced sequence of PUSH and POP: every POP matches an earlier PUSH, and no POP names R255 (R127). -/
inductive Balanced : List Instr → Prop where
  | nil : Balanced []
  | block (v : Src) (rd : RegIx) (inner rest : List Instr) (hrd : rd ≠ spIndex)
      (hin : Balanced inner) (hrest : Balanced rest) :
      Balanced (.push v :: (inner ++ .pop rd :: rest))

end Sys2Proof.Machine
end

