-- ==== Sys2Proof/Certificates/Slice0/Obligations.lean ====
section
/-! DEFINITION. The statements for the provers. Each docstring names the rules of spec/ it formalises, and the spec's own decision
(spec/92_eei_decisions.md) or the log entry where a clause rests on one. -/

open Sys2Proof Sys2Proof.Machine

/-! ### Reset and the loader -/

/-- The reset values (10_state.md section 9); the empty FLAGS are decision D13, the empty image is log entry 8. -/
def Obligations.ResetValues : Prop :=
  (∀ i, State.reset.reg i = 0) ∧ State.reset.pc = 0 ∧ State.reset.flags = ⟨false, false, false⟩ ∧
    (∀ a, State.reset.mem.read a = 0) ∧ State.reset.run = .running ∧ State.reset.exitCode = 1 ∧ State.reset.hostLog = [] ∧
    State.reset.spWritten = false

/-- The start with an image (70_reset_and_hazards.md section 1): the image's bytes from address 0 on, 0 above them, and
the other reset values; a refused image gives no start. FLAGS: decision D13. -/
def Obligations.BootLoadsTheImage : Prop :=
  (∀ c image bytes, loadImage c image = some bytes → ∃ s, State.boot c image = some s ∧ s.cfg = c ∧
    (∀ i, s.reg i = 0) ∧ s.pc = 0 ∧ s.flags = ⟨false, false, false⟩ ∧
    (∀ a, s.mem.read a = bytes.getD a 0) ∧ s.run = .running ∧ s.exitCode = 1 ∧ s.hostLog = [] ∧ s.spWritten = false) ∧
  (∀ c image, loadImage c image = none → State.boot c image = none)

/-- R192: the bytes of each group, by the rule's own shifts, stand at consecutive addresses from 0 on, and packing
inverts unpacking. The ranges of the characters are those in which the rule's digits lie. -/
def Obligations.LoaderUnpacksEachGroup : Prop :=
  (∀ (c : Config) (image : List Nat), image.length % 3 = 0 → 2 * image.length / 3 ≤ c.memSize →
    (∀ k x, image[k]? = some x → 40 ≤ x ∧ x ≤ if k % 3 = 0 then 103 else 71) →
    ∃ s, State.boot c image = some s ∧ ∀ k, k < image.length / 3 →
      (s.mem.read (2 * k)).toNat = ((image.getD (3 * k) 0 - 40) <<< 2 ||| (image.getD (3 * k + 1) 0 - 40) >>> 3) ∧
      (s.mem.read (2 * k + 1)).toNat =
        (((image.getD (3 * k + 1) 0 - 40) &&& 0x07) <<< 5 ||| (image.getD (3 * k + 2) 0 - 40))) ∧
  (∀ b1 b2 : Byte, packGroup b1 b2 =
    [(b1 >>> 2).toNat + 40, ((b1 &&& 0x03) <<< 3 ||| b2 >>> 5).toNat + 40, (b2 &&& 0x1F).toNat + 40]) ∧
  (∀ bytes : List Byte, bytes.length % 2 = 0 → unpack (pack bytes) = some bytes)

/-- The images the loader accepts (70_reset_and_hazards.md section 2): decision D27. -/
def Obligations.LoaderAcceptsExactly : Prop :=
  ∀ (c : Config) (image : List Nat), (State.boot c image).isSome = true ↔
    image.length % 3 = 0 ∧ (∀ k x, image[k]? = some x → 40 ≤ x ∧ x ≤ if k % 3 = 0 then 103 else 71) ∧
      2 * image.length / 3 ≤ c.memSize

/-! ### The invariant -/

/-- The state after reset meets the invariant `State.Inv` (10_state.md sections 4, 5, 6 and 9). -/
def Obligations.ResetMeetsInvariant : Prop := State.reset.Inv

/-- Every state in which the machine starts meets the invariant, whatever the image and the legal parameters. -/
def Obligations.BootMeetsInvariant : Prop :=
  ∀ c image s, c.Legal → State.boot c image = some s → s.Inv

/-- Every step keeps the invariant: legal parameters, memory in canonical form and inside MEM_SIZE, FLAGS one of the
reachable values, exit code 1 until the machine halts, R255 0 until an instruction writes it (00_scope.md R9, 10_state.md
sections 4 to 6 and 9). -/
def Obligations.StepKeepsInvariant : Prop := ∀ s t, s.Inv → step s = .next t → t.Inv

/-! ### Encoding -/

/-- Decoding what the encoder writes gives the instruction back, with every operand, for every well-formed instruction
under all legal parameters (30_encoding.md sections 1 to 6; the numbers and shapes are D3 and D4's parameters). -/
def Obligations.DecodeInvertsEncode : Prop :=
  ∀ (c : Config) (i : Instr) (rest : List Byte), c.Legal → i.wellFormed c = true →
    decode c (encode c i ++ rest) = .ok (i, rest)

/-- A decoded instruction is well formed, and the bytes it was read from are those the encoder writes, but for the mode
bits where it has no final operand (30_encoding.md sections 4 and 6). -/
def Obligations.EncodeInvertsDecode : Prop :=
  ∀ (c : Config) (bytes rest : List Byte) (i : Instr), c.Legal → decode c bytes = .ok (i, rest) →
    i.wellFormed c = true ∧ ∃ b b' operands, bytes = b :: (operands ++ rest) ∧ encode c i = b' :: operands ∧
      opcodeField b' = opcodeField b ∧
      ∀ op outs ins, i.parts = some (op, outs, ins) → (c.shape op).finals ≠ 0 → b' = b

/-- R72: every byte sequence that is long enough decodes, and fetching and decoding fails only with FETCH_RANGE at a
byte outside memory. -/
def Obligations.DecodingIsTotal : Prop :=
  (∀ (c : Config) (bytes : List Byte), maxLength ≤ bytes.length → ∃ i rest, decode c bytes = .ok (i, rest)) ∧
  (∀ s : State, (∃ i, s.fetchInstr = .ok i) ∨
    ∃ a, s.fetchInstr = .error ⟨.fetchRange, a⟩ ∧ s.legal a 1 = false)

/-- The mode bits are ignored where an instruction has no final operand (30_encoding.md section 4). -/
def Obligations.ModeBitsIgnoredWithoutFinalOperand : Prop :=
  ∀ (c : Config) (b b' : Byte) (rest : List Byte), opcodeField b = opcodeField b' →
    (∀ op, c.opAt (opcodeField b) = some op → (c.shape op).finals = 0) → decode c (b :: rest) = decode c (b' :: rest)

/-- Words written out from the encodings of the spec, one for each instruction, every format and mode among them
(30_encoding.md section 6, with the default numbers and shapes of D3 and D4). -/
def Obligations.WrittenOutWordsDecode : Prop :=
  ∀ word ∈ ([
      ([0x41, 0x00, 0x05], .mov 0 (.imm8 5)),
      ([0xC2, 0x01, 0x02, 0x10, 0x00, 0x00, 0x00], .ldb 1 (.reg 2) (.imm32 0x10)),
      ([0x03, 0x01, 0x03, 0x04], .ldw 1 (.reg 3) (.reg 4)),
      ([0x44, 0x04, 0x03, 0x05], .stb (.reg 4) (.reg 3) (.imm8 5)),
      ([0x85, 0x04, 0x03, 0xFC], .stw (.reg 4) (.reg 3) (.pcrel8 0xFC)),
      ([0x46, 0x7F], .jmp (.imm8 0x7F)),
      ([0x87, 0x04], .jsr (.pcrel8 4)),
      ([0x48], .rts),
      ([0x89, 0x10], .beq (.pcrel8 0x10)),
      ([0x0A, 0x07], .bne (.reg 7)),
      ([0xCB, 0x00, 0x01, 0x00, 0x00], .blt (.imm32 0x100)),
      ([0x4C, 0x80], .ble (.imm8 0x80)),
      ([0x8D, 0xFF], .bgt (.pcrel8 0xFF)),
      ([0x0E, 0xFF], .bge (.reg 255)),
      ([0x0F, 0x00, 0x01], .cmp (.reg 0) (.reg 1)),
      ([0xD0, 0x78, 0x56, 0x34, 0x12], .push (.imm32 0x12345678)),
      ([0xD1, 0x05], .pop 5),
      ([0x12, 0x00, 0x01], .add 0 (.reg 1)),
      ([0x53, 0x02, 0x01], .sub 2 (.imm8 1)),
      ([0xD4, 0x00, 0x00, 0x00, 0x01, 0x00], .mul 0 (.imm32 0x10000)),
      ([0x95, 0x00, 0x02], .div 0 (.pcrel8 2)),
      ([0x56, 0x00, 0xFE], .mod 0 (.imm8 0xFE)),
      ([0x57, 0x00, 0x0F], .and 0 (.imm8 0x0F)),
      ([0x18, 0x00, 0x09], .or 0 (.reg 9)),
      ([0x99, 0x03, 0x03], .xor 3 (.pcrel8 3)),
      ([0x5A, 0x00, 0x1F], .shl 0 (.imm8 0x1F)),
      ([0x5B, 0x00, 0x01], .shr 0 (.imm8 1)),
      ([0x1C, 0x03], .exit (.reg 3)),
      ([0x9D, 0x03], .println (.pcrel8 3)),
      ([0x5E, 0x10], .print (.imm8 0x10)),
      ([0xDF, 0x40, 0x00, 0x00, 0x00], .run (.imm32 0x40))] : List (List Byte × Instr)),
    decode Config.default word.1 = .ok (word.2, [])

/-- R64: each mode's bytes resolve to the value the rule gives, and take one byte in modes 0 to 2 and four in mode 3. -/
def Obligations.FinalOperandsResolveByMode : Prop :=
  ∀ (s : State) (b0 b1 b2 b3 : Byte) (rest : List Byte),
    (∃ a, takeFinal (Mode.ofBits 0) (b0 :: rest) = .ok (a, rest) ∧ s.value a = s.reg b0) ∧
    (∃ a, takeFinal (Mode.ofBits 1) (b0 :: rest) = .ok (a, rest) ∧
      (s.value a).toInt = if b0.toNat < 128 then (b0.toNat : Int) else b0.toNat - 256) ∧
    (∃ a, takeFinal (Mode.ofBits 2) (b0 :: rest) = .ok (a, rest) ∧
      (s.value a).toNat = (s.pc.toNat + if b0.toNat < 128 then b0.toNat else b0.toNat + (2 ^ 32 - 256)) % 2 ^ 32) ∧
    (∃ a, takeFinal (Mode.ofBits 3) (b0 :: b1 :: b2 :: b3 :: rest) = .ok (a, rest) ∧
      (s.value a).toNat = b0.toNat + b1.toNat * 2 ^ 8 + b2.toNat * 2 ^ 16 + b3.toNat * 2 ^ 24)

/-! ### The step -/

/-- When the bytes at the pc decode to an instruction, the step is exec of it, and its length is theirs; exec itself moves
the pc past them (70_reset_and_hazards.md section 4). -/
def Obligations.StepRunsTheDecodedInstruction : Prop :=
  ∀ (s : State) (bytes : List Byte) (i : Instr), s.run = .running → BytesAtPc s bytes →
    decode s.cfg bytes = .ok (i, []) → step s = exec i s ∧ i.length = bytes.length

/-- An instruction that runs out of memory faults with FETCH_RANGE at the first byte that is not there, whatever comes
before it (60_exceptions.md sections 2 and 3; decisions D7, D12). -/
def Obligations.FetchFaultsAtTheFirstMissingByte : Prop :=
  ∀ (s : State) (bytes : List Byte), s.run = .running → BytesAtPc s bytes →
    decode s.cfg bytes = .error .truncated → s.legal (s.pc + BitVec.ofNat 32 bytes.length) 1 = false →
    step s = .next (s.setRun (.faulted ⟨.fetchRange, s.pc + BitVec.ofNat 32 bytes.length⟩))

/-- The run state (10_state.md section 6, 60_exceptions.md section 4): the machine starts running, EXIT and an unrecognized opcode halt it, a fault ends it, nothing else leaves
Running, and a halted or faulted machine makes no step. -/
def Obligations.RunStateChangesAsStated : Prop :=
  State.reset.run = .running ∧
  (∀ s, s.run ≠ .running → step s = .fault .stopped) ∧
  (∀ i s, halts i = true → ∃ t, exec i s = .next t ∧ t.run = .halted) ∧
  (∀ s t, step s = .next t → s.run = .running ∧ (t.run = .running ∨
    (t.run = .halted ∧ ∃ i, s.fetchInstr = .ok i ∧ halts i = true) ∨ ∃ r, t.run = .faulted r))

/-- A running machine makes a step unless the host never acknowledges the event at hand, and no step is refused: no
encoding traps and no instruction is privileged (30_encoding.md section 7, 60_exceptions.md sections 4 and 6; the
host's silence is log entry 7). -/
def Obligations.RunningMachineMakesAStep : Prop :=
  (∀ s, s.run = .running → s.hostSilentAt ≠ some s.hostLog.length → ∃ t, step s = .next t) ∧
  (∀ s r, step s ≠ .refused r)

/-- Faults are precise: the state after a fault is the state before the instruction, apart from `run` (60_exceptions.md
section 2; decision D10). -/
def Obligations.FaultsArePrecise : Prop :=
  ∀ s t r, step s = .next t → t.run = .faulted r → t = s.setRun (.faulted r)

/-- The exit code is written by EXIT only, is 1 at reset, and no instruction reads it (10_state.md section 6). -/
def Obligations.ExitCodeIsWrittenByExitOnly : Prop :=
  State.reset.exitCode = 1 ∧
  (∀ s t, step s = .next t → t.exitCode = s.exitCode ∨
    ∃ code, s.fetchInstr = .ok (.exit code) ∧ t.exitCode = s.value code) ∧
  (∀ i s v, isExit i = false → exec i (s.setExitCode v) = mapNext (fun t => t.setExitCode v) (exec i s)) ∧
  (∀ code s v, exec (.exit code) (s.setExitCode v) = exec (.exit code) s)

/-- FLAGS is written by CMP only, and read by the six branches only (10_state.md section 4); after reset it is empty by
decision D13, which this statement does not claim. -/
def Obligations.FlagsAreWrittenByCmpAndReadByBranches : Prop :=
  (∀ s t, step s = .next t → t.flags = s.flags ∨ ∃ i, s.fetchInstr = .ok i ∧ isCmp i = true) ∧
  (∀ i s f, readsFlags i = false → isCmp i = false →
    exec i (s.setFlags f) = mapNext (fun t => t.setFlags f) (exec i s)) ∧
  (∀ a b s f, exec (.cmp a b) (s.setFlags f) = exec (.cmp a b) s)

/-- The host log is never rewritten, and grows by at most one event a step, by a host instruction (45_system_host.md section 4;
decision D23). -/
def Obligations.HostLogOnlyGrows : Prop :=
  ∀ s t, step s = .next t → t.hostLog = s.hostLog ∨
    ∃ i e, s.fetchInstr = .ok i ∧ callsHost i = true ∧ t.hostLog = s.hostLog ++ [e]

/-- No step changes the parameters or what the host will do: the model's own fields (log entries 1 and 7). -/
def Obligations.ParametersStayFixed : Prop :=
  ∀ s t, step s = .next t → t.cfg = s.cfg ∧ t.hostSilentAt = s.hostSilentAt

/-- Whichever instruction runs, no register changes but its output register and, for PUSH, POP, JSR and RTS, R255
(10_state.md section 2). -/
def Obligations.RegistersOutsideTheOutputsAreKept : Prop :=
  ∀ i s t, exec i s = .next t → RegsKept (writesRegs i) s t

/-- Whichever instruction runs, no byte of memory changes but those a store, a push or a call stores, at the address it
computes (20_memory.md sections 5 and 6). -/
def Obligations.MemoryOutsideTheStoredBytesIsKept : Prop :=
  ∀ i s t, exec i s = .next t →
    (stores s i = none → MemSame s t) ∧ (∀ a n, stores s i = some (a, n) → MemKept a.toNat n s t)

/-- A store is seen by every later fetch (20_memory.md section 8): after STB, STW, PUSH or JSR stored, in that state or in any later
one in which the stored byte still holds, wherever the pc is, the fetch that reaches byte k of the store reads byte k of
the stored word. -/
def Obligations.NextFetchSeesTheStore : Prop :=
  ∀ (i : Instr) (s t u : State) (a w : Word) (n j k : Nat), s.run = .running → s.mem.wf = true →
    stores s i = some (a, n) → storedWord s i = some w → exec i s = .next t → t.run = .running →
    u.cfg = t.cfg → k < n → u.mem.read (a.toNat + k) = t.mem.read (a.toNat + k) → j < maxLength →
    u.pc + BitVec.ofNat 32 j = a + BitVec.ofNat 32 k → (∀ m, m ≤ j → u.legal (u.pc + BitVec.ofNat 32 m) 1 = true) →
    ∃ b, u.fetchWindow[j]? = some b ∧ b.toNat = w.toNat / 2 ^ (8 * k) % 2 ^ 8

/-! ### Move, load and store -/

/-- R91: MOV copies a value into a register and changes nothing else; its encoding with the default OPCODE_OF. -/
def Obligations.MovCopiesItsOperand : Prop :=
  EncodedFOV 1 .mov ∧
  ∀ rd v s, ∃ t, exec (.mov rd v) s = .next t ∧ t.reg rd = s.value v ∧
    t.pc = s.pc + BitVec.ofNat 32 (Instr.mov rd v).length ∧ OnlyRegs [rd] s t

/-- LDB loads a zero-extended byte, LDW a little-endian word, from base +32 off, where the access is legal
(40_move_load_store.md sections 1 and 3; the range is decision D7, the sum D8, the extension D20, no alignment D9). -/
def Obligations.LoadsReadMemory : Prop :=
  ∀ (rd : RegIx) (base off : Src) (s : State) (ea : Word), ea = s.value base + s.value off → 0 ≤ ea.toInt →
    (ea.toInt + 1 ≤ s.cfg.memSize → ∃ t, exec (.ldb rd base off) s = .next t ∧
      (t.reg rd).toNat = (s.mem.read ea.toNat).toNat ∧
      t.pc = s.pc + BitVec.ofNat 32 (Instr.ldb rd base off).length ∧ OnlyRegs [rd] s t) ∧
    (ea.toInt + 4 ≤ s.cfg.memSize → ∃ t, exec (.ldw rd base off) s = .next t ∧
      (t.reg rd).toNat = (s.mem.read ea.toNat).toNat + (s.mem.read (ea.toNat + 1)).toNat * 2 ^ 8 +
        (s.mem.read (ea.toNat + 2)).toNat * 2 ^ 16 + (s.mem.read (ea.toNat + 3)).toNat * 2 ^ 24 ∧
      t.pc = s.pc + BitVec.ofNat 32 (Instr.ldw rd base off).length ∧ OnlyRegs [rd] s t)

/-- STB stores the low byte, STW the four bytes of a word, least significant first, at base +32 off, where the access is
legal (40_move_load_store.md sections 1 and 4; decisions D7, D8, D9). -/
def Obligations.StoresWriteMemory : Prop :=
  ∀ (v base off : Src) (s : State) (ea : Word), ea = s.value base + s.value off → s.mem.wf = true → 0 ≤ ea.toInt →
    (ea.toInt + 1 ≤ s.cfg.memSize → ∃ t, exec (.stb v base off) s = .next t ∧
      (t.mem.read ea.toNat).toNat = (s.value v).toNat % 2 ^ 8 ∧
      t.pc = s.pc + BitVec.ofNat 32 (Instr.stb v base off).length ∧ OnlyRegsAndBytes [] ea.toNat 1 s t) ∧
    (ea.toInt + 4 ≤ s.cfg.memSize → ∃ t, exec (.stw v base off) s = .next t ∧
      (∀ k, k < 4 → (t.mem.read (ea.toNat + k)).toNat = (s.value v).toNat / 2 ^ (8 * k) % 2 ^ 8) ∧
      t.pc = s.pc + BitVec.ofNat 32 (Instr.stw v base off).length ∧ OnlyRegsAndBytes [] ea.toNat 4 s t)

/-- An access of LDB, LDW, STB or STW that is not wholly in memory faults with LOAD_RANGE or STORE_RANGE and the address of
its first byte, and changes nothing but `run` (20_memory.md section 3, 60_exceptions.md section 2; decisions D7, D10, D11). -/
def Obligations.AccessesOutsideMemoryFault : Prop :=
  ∀ (rd : RegIx) (v base off : Src) (s : State) (ea : Word), ea = s.value base + s.value off →
    (¬ (0 ≤ ea.toInt ∧ ea.toInt + 1 ≤ s.cfg.memSize) →
      exec (.ldb rd base off) s = .next (s.setRun (.faulted ⟨.loadRange, ea⟩)) ∧
      exec (.stb v base off) s = .next (s.setRun (.faulted ⟨.storeRange, ea⟩))) ∧
    (¬ (0 ≤ ea.toInt ∧ ea.toInt + 4 ≤ s.cfg.memSize) →
      exec (.ldw rd base off) s = .next (s.setRun (.faulted ⟨.loadRange, ea⟩)) ∧
      exec (.stw v base off) s = .next (s.setRun (.faulted ⟨.storeRange, ea⟩)))

/-- A mixed-width access sees the bytes of the word: after STW, LDW at the same address gives the value back, and LDB at
byte k of it gives bits 8k+7:8k (20_memory.md section 2). The premises are the invariant's: with a MEM_SIZE above 2^31,
which R9 rules out, the last of these bytes could have a negative address. -/
def Obligations.LoadsSeeTheStoredWord : Prop :=
  ∀ (v base off : Src) (s t : State), s.cfg.Legal → s.run = .running → s.mem.wf = true → exec (.stw v base off) s = .next t →
    t.run = .running →
    (∀ rd b o, t.value b + t.value o = s.value base + s.value off →
      ∃ u, exec (.ldw rd b o) t = .next u ∧ u.reg rd = s.value v) ∧
    (∀ rd b o k, k < 4 → t.value b + t.value o = s.value base + s.value off + BitVec.ofNat 32 k →
      ∃ u, exec (.ldb rd b o) t = .next u ∧ (u.reg rd).toNat = (s.value v).toNat / 2 ^ (8 * k) % 2 ^ 8)

/-! ### Control transfer -/

/-- JMP sets the pc to its operand's value, changes nothing else and raises no fault; a target outside memory faults at
the next fetch (41_control.md sections 1 and 2; the unchecked target is decision D26, the fault D7, D10, D11); its
encoding with the default OPCODE_OF (D3). -/
def Obligations.JmpSetsThePc : Prop :=
  EncodedF1 6 .jmp ∧
  ∀ addr s, ∃ t, exec (.jmp addr) s = .next t ∧ t.pc = s.value addr ∧ OnlyRegs [] s t ∧
    (s.run = .running → ¬ (0 ≤ (s.value addr).toInt ∧ (s.value addr).toInt + 1 ≤ s.cfg.memSize) →
      step t = .next (t.setRun (.faulted ⟨.fetchRange, s.value addr⟩)))

/-- JSR pushes the address of the byte after it and jumps (41_control.md section 2; the range is decision D7). -/
def Obligations.JsrPushesTheReturnAddress : Prop :=
  ∀ (addr : Src) (s : State) (sp : Word), sp = s.reg 255 - 4 → s.mem.wf = true → 0 ≤ sp.toInt →
    sp.toInt + 4 ≤ s.cfg.memSize → ∃ t, exec (.jsr addr) s = .next t ∧ t.pc = s.value addr ∧ t.reg 255 = sp ∧
      t.mem.readWord sp.toNat = s.pc + BitVec.ofNat 32 (Instr.jsr addr).length ∧
      OnlyRegsAndBytes [255] sp.toNat 4 s t

/-- RTS pops the pc (41_control.md section 2; the range is decision D7). With R255 still 0 it faults: that form is
`Obligations.StackWithR255StillZero`. -/
def Obligations.RtsPopsThePc : Prop :=
  ∀ (s : State) (sp : Word), sp = s.reg 255 → s.spWritten = true ∨ sp ≠ 0 → 0 ≤ sp.toInt →
    sp.toInt + 4 ≤ s.cfg.memSize →
    ∃ t, exec .rts s = .next t ∧ t.reg 255 = sp + 4 ∧ OnlyRegs [255] s t ∧
      t.pc.toNat = (s.mem.read sp.toNat).toNat + (s.mem.read (sp.toNat + 1)).toNat * 2 ^ 8 +
        (s.mem.read (sp.toNat + 2)).toNat * 2 ^ 16 + (s.mem.read (sp.toNat + 3)).toNat * 2 ^ 24

/-- The six conditional branches: taken exactly when FLAGS holds what the table asks for, else the next instruction; no
flag, register or byte changes (41_control.md section 3; the conditions are decision D15, the unchecked target D26). -/
def Obligations.BranchesTestTheFlags : Prop :=
  ∀ (f : Src → Instr) (taken : Flags → Bool), (f, taken) ∈ [
      (Instr.beq, fun fl => fl.equal), (Instr.bne, fun fl => !fl.equal), (Instr.blt, fun fl => fl.less),
      (Instr.ble, fun fl => fl.less || fl.equal), (Instr.bgt, fun fl => fl.greater),
      (Instr.bge, fun fl => fl.greater || fl.equal)] →
    ∀ addr s, ∃ t, exec (f addr) s = .next t ∧ OnlyRegs [] s t ∧
      t.pc = if taken s.flags then s.value addr else s.pc + BitVec.ofNat 32 (f addr).length

/-- A subroutine that restores R255 and leaves its stacked return address alone returns to the instruction after the JSR,
with R255 as before the call (41_control.md section 4). -/
def Obligations.ReturnResumesAfterTheCall : Prop :=
  ∀ (addr : Src) (s t u : State), s.run = .running → s.mem.wf = true → exec (.jsr addr) s = .next t → t.run = .running →
    u.cfg = t.cfg → u.reg 255 = t.reg 255 → u.spWritten = t.spWritten →
    (∀ k, k < 4 → u.mem.read ((t.reg 255).toNat + k) = t.mem.read ((t.reg 255).toNat + k)) →
    ∃ r, exec .rts u = .next r ∧ r.pc = s.pc + BitVec.ofNat 32 (Instr.jsr addr).length ∧ r.reg 255 = s.reg 255

/-! ### Compare -/

/-- CMP sets exactly the flag of the signed comparison and changes nothing else (42_compare.md; the operand shape is
decision D4). -/
def Obligations.CmpSetsOneFlag : Prop :=
  ∀ a b s, ∃ t, exec (.cmp a b) s = .next t ∧
    (t.flags.equal = true ↔ (s.value a).toInt = (s.value b).toInt) ∧
    (t.flags.less = true ↔ (s.value a).toInt < (s.value b).toInt) ∧
    (t.flags.greater = true ↔ (s.value b).toInt < (s.value a).toInt) ∧
    t.pc = s.pc + BitVec.ofNat 32 (Instr.cmp a b).length ∧ OnlyFlags s t

/-- After CMP a, b, however many instructions leave FLAGS as it is, each branch is taken as its signed comparison says
(42_compare.md; the conditions are decision D15). -/
def Obligations.BranchesAfterCmpFollowTheComparison : Prop :=
  ∀ (a b addr : Src) (s t u : State), exec (.cmp a b) s = .next t → u.flags = t.flags →
    ∀ (f : Src → Instr) (taken : Prop), ((f = .beq ∧ taken = ((s.value a).toInt = (s.value b).toInt)) ∨
      (f = .bne ∧ taken = ((s.value a).toInt ≠ (s.value b).toInt)) ∨
      (f = .blt ∧ taken = ((s.value a).toInt < (s.value b).toInt)) ∨
      (f = .ble ∧ taken = ((s.value a).toInt ≤ (s.value b).toInt)) ∨
      (f = .bgt ∧ taken = ((s.value b).toInt < (s.value a).toInt)) ∨
      (f = .bge ∧ taken = ((s.value b).toInt ≤ (s.value a).toInt))) →
    ∃ r, exec (f addr) u = .next r ∧ (taken → r.pc = u.value addr) ∧
      (¬ taken → r.pc = u.pc + BitVec.ofNat 32 (f addr).length)

/-! ### Stack -/

/-- PUSH stores its operand's value, resolved before the decrement, at the new R255 (43_stack.md; the shape is decision
D4, the range D7). -/
def Obligations.PushStoresItsOperand : Prop :=
  ∀ (v : Src) (s : State) (sp : Word), sp = s.reg 255 - 4 → s.mem.wf = true → 0 ≤ sp.toInt →
    sp.toInt + 4 ≤ s.cfg.memSize → ∃ t, exec (.push v) s = .next t ∧ t.reg 255 = sp ∧
      t.mem.readWord sp.toNat = s.value v ∧ t.pc = s.pc + BitVec.ofNat 32 (Instr.push v).length ∧
      OnlyRegsAndBytes [255] sp.toNat 4 s t

/-- POP loads the word at R255 and adds 4 to R255 after it wrote the destination, so POP R255 leaves the word plus 4
(43_stack.md; decisions D7 and D21). With R255 still 0 it faults: that form is `Obligations.StackWithR255StillZero`. -/
def Obligations.PopLoadsTheTop : Prop :=
  ∀ (rd : RegIx) (s : State) (sp w : Word), sp = s.reg 255 → s.spWritten = true ∨ sp ≠ 0 → 0 ≤ sp.toInt →
    sp.toInt + 4 ≤ s.cfg.memSize →
    w.toNat = (s.mem.read sp.toNat).toNat + (s.mem.read (sp.toNat + 1)).toNat * 2 ^ 8 +
      (s.mem.read (sp.toNat + 2)).toNat * 2 ^ 16 + (s.mem.read (sp.toNat + 3)).toNat * 2 ^ 24 →
    ∃ t, exec (.pop rd) s = .next t ∧ (rd ≠ 255 → t.reg rd = w ∧ t.reg 255 = sp + 4) ∧
      (rd = 255 → t.reg 255 = w + 4) ∧ t.pc = s.pc + 2 ∧ OnlyRegs [rd, 255] s t

/-- A push or a call whose four bytes are not all in memory faults with STORE_RANGE, a pop or a return with LOAD_RANGE,
and nothing changes but `run` (41_control.md section 2, 43_stack.md; decisions D7, D10, D11). -/
def Obligations.StackAccessesOutsideMemoryFault : Prop :=
  ∀ (rd : RegIx) (v : Src) (s : State),
    (¬ (0 ≤ (s.reg 255 - 4).toInt ∧ (s.reg 255 - 4).toInt + 4 ≤ s.cfg.memSize) →
      exec (.push v) s = .next (s.setRun (.faulted ⟨.storeRange, s.reg 255 - 4⟩)) ∧
      exec (.jsr v) s = .next (s.setRun (.faulted ⟨.storeRange, s.reg 255 - 4⟩))) ∧
    (¬ (0 ≤ (s.reg 255).toInt ∧ (s.reg 255).toInt + 4 ≤ s.cfg.memSize) →
      exec (.pop rd) s = .next (s.setRun (.faulted ⟨.loadRange, s.reg 255⟩)) ∧
      exec .rts s = .next (s.setRun (.faulted ⟨.loadRange, s.reg 255⟩)))

/-- The stack law (43_stack.md): across any balanced sequence of PUSH and POP that does not fault, a POP gives the value of
its matching PUSH, whatever balanced sequence stands between them, and R255 ends where it began. -/
def Obligations.PopReturnsTheMatchingPush : Prop :=
  ∀ (v : Src) (rd : RegIx) (inner : List Instr) (s t : State), Balanced inner → rd ≠ 255 → s.run = .running →
    s.mem.wf = true → execList (.push v :: (inner ++ [.pop rd])) s = some t →
    t.reg rd = s.value v ∧ t.reg 255 = s.reg 255

/-- A balanced sequence of PUSH and POP runs to its end without a fault where the stack has four bytes for each of its
instructions and R255 starts inside memory (43_stack.md, 70_reset_and_hazards.md section 3). -/
def Obligations.BalancedStackUseCompletes : Prop :=
  ∀ (w : List Instr) (s : State), Balanced w → s.run = .running → 4 * (w.length : Int) ≤ (s.reg 255).toInt →
    (s.reg 255).toInt ≤ s.cfg.memSize → ∃ t, execList w s = some t ∧ t.reg 255 = s.reg 255

/-! ### Arithmetic and logic -/

/-- ADD, SUB and MUL give the low 32 bits of the exact result, as a signed number, and change nothing but their register
(44_alu.md sections 1 and 2; the wrap is decision D16). -/
def Obligations.AddSubMulWrap : Prop :=
  ∀ (f : RegIx → Src → Instr) (op : Int → Int → Int), (f, op) ∈ [
      (Instr.add, fun a b => a + b), (Instr.sub, fun a b => a - b), (Instr.mul, fun a b => a * b)] →
    ∀ rd v s, ∃ t, exec (f rd v) s = .next t ∧
      (t.reg rd).toInt = (op (s.reg rd).toInt (s.value v).toInt).bmod (2 ^ 32) ∧
      t.pc = s.pc + BitVec.ofNat 32 (f rd v).length ∧ OnlyRegs [rd] s t

/-- DIV and MOD by a divisor that is not 0, but for -2^31 and -1: dividend = quotient * divisor + remainder, the remainder
smaller than the divisor and of the dividend's sign, so the quotient is rounded toward zero (44_alu.md section 2; decision D17). -/
def Obligations.DivModTruncate : Prop :=
  ∀ (rd : RegIx) (v : Src) (s : State) (a b : Int), a = (s.reg rd).toInt → b = (s.value v).toInt → b ≠ 0 →
    ¬ (a = -2 ^ 31 ∧ b = -1) →
    ∃ t u, exec (.div rd v) s = .next t ∧ exec (.mod rd v) s = .next u ∧
      a = (t.reg rd).toInt * b + (u.reg rd).toInt ∧ (u.reg rd).toInt.natAbs < b.natAbs ∧
      (0 ≤ a → 0 ≤ (u.reg rd).toInt) ∧ (a ≤ 0 → (u.reg rd).toInt ≤ 0) ∧
      t.pc = s.pc + BitVec.ofNat 32 (Instr.div rd v).length ∧ OnlyRegs [rd] s t ∧
      u.pc = s.pc + BitVec.ofNat 32 (Instr.mod rd v).length ∧ OnlyRegs [rd] s u

/-- DIV and MOD by 0 fault with DIVIDE_BY_ZERO; -2^31 and -1 fault with DIVIDE_OVERFLOW or wrap to -2^31 and 0, as
DIV_OVERFLOW_POLICY says (44_alu.md section 2, 60_exceptions.md section 2; decisions D10, D11, D17). -/
def Obligations.DivModCorners : Prop :=
  ∀ (rd : RegIx) (v : Src) (s : State),
    ((s.value v).toInt = 0 →
      exec (.div rd v) s = .next (s.setRun (.faulted ⟨.divideByZero, 0⟩)) ∧
      exec (.mod rd v) s = .next (s.setRun (.faulted ⟨.divideByZero, 0⟩))) ∧
    ((s.reg rd).toInt = -2 ^ 31 → (s.value v).toInt = -1 →
      (s.cfg.divOverflow = .fault →
        exec (.div rd v) s = .next (s.setRun (.faulted ⟨.divideOverflow, 0⟩)) ∧
        exec (.mod rd v) s = .next (s.setRun (.faulted ⟨.divideOverflow, 0⟩))) ∧
      (s.cfg.divOverflow = .wrap → ∃ t u, exec (.div rd v) s = .next t ∧ exec (.mod rd v) s = .next u ∧
        (t.reg rd).toInt = -2 ^ 31 ∧ (u.reg rd).toInt = 0 ∧
        t.pc = s.pc + BitVec.ofNat 32 (Instr.div rd v).length ∧ OnlyRegs [rd] s t ∧
        u.pc = s.pc + BitVec.ofNat 32 (Instr.mod rd v).length ∧ OnlyRegs [rd] s u))

/-- R137, R138, R139: AND, OR and XOR work bit by bit, raise no fault and change nothing but their register; their
encodings with the default OPCODE_OF. -/
def Obligations.LogicWorksBitByBit : Prop :=
  EncodedFOV 23 .and ∧ EncodedFOV 24 .or ∧ EncodedFOV 25 .xor ∧
  ∀ (f : RegIx → Src → Instr) (op : Bool → Bool → Bool), (f, op) ∈ [
      (Instr.and, fun a b => a && b), (Instr.or, fun a b => a || b), (Instr.xor, fun a b => a != b)] →
    ∀ rd v s, ∃ t, exec (f rd v) s = .next t ∧
      (∀ k, k < 32 → (t.reg rd).getLsbD k = op ((s.reg rd).getLsbD k) ((s.value v).getLsbD k)) ∧
      t.pc = s.pc + BitVec.ofNat 32 (f rd v).length ∧ OnlyRegs [rd] s t

/-- SHL and SHR by 0 to 31: the value times 2^n modulo 2^32, and the signed value divided by 2^n, rounded down (44_alu.md
section 4; decision D19). -/
def Obligations.ShiftsInRange : Prop :=
  ∀ (rd : RegIx) (v : Src) (s : State) (n : Nat), (s.value v).toInt = n → n ≤ 31 →
    ∃ t u, exec (.shl rd v) s = .next t ∧ exec (.shr rd v) s = .next u ∧
      (t.reg rd).toNat = (s.reg rd).toNat * 2 ^ n % 2 ^ 32 ∧ (u.reg rd).toInt = (s.reg rd).toInt.fdiv (2 ^ n) ∧
      t.pc = s.pc + BitVec.ofNat 32 (Instr.shl rd v).length ∧ OnlyRegs [rd] s t ∧
      u.pc = s.pc + BitVec.ofNat 32 (Instr.shr rd v).length ∧ OnlyRegs [rd] s u

/-- SHL and SHR by an amount outside 0..31: SHIFT_RANGE with the amount as the info word, or a shift by the amount's low
five bits, as SHIFT_RANGE_POLICY says (44_alu.md section 4, 60_exceptions.md section 2; decisions D10, D11, D18, D19). -/
def Obligations.ShiftsOutOfRange : Prop :=
  ∀ (rd : RegIx) (v : Src) (s : State), (s.value v).toInt < 0 ∨ 31 < (s.value v).toInt →
    (s.cfg.shiftRange = .fault →
      exec (.shl rd v) s = .next (s.setRun (.faulted ⟨.shiftRange, s.value v⟩)) ∧
      exec (.shr rd v) s = .next (s.setRun (.faulted ⟨.shiftRange, s.value v⟩))) ∧
    (s.cfg.shiftRange = .mask5 → ∃ t u, exec (.shl rd v) s = .next t ∧ exec (.shr rd v) s = .next u ∧
      (t.reg rd).toNat = (s.reg rd).toNat * 2 ^ ((s.value v).toNat % 32) % 2 ^ 32 ∧
      (u.reg rd).toInt = (s.reg rd).toInt.fdiv (2 ^ ((s.value v).toNat % 32)) ∧
      t.pc = s.pc + BitVec.ofNat 32 (Instr.shl rd v).length ∧ OnlyRegs [rd] s t ∧
      u.pc = s.pc + BitVec.ofNat 32 (Instr.shr rd v).length ∧ OnlyRegs [rd] s u)

/-! ### Halt and host instructions -/

/-- EXIT sets the exit code and halts, the pc past it (45_system_host.md section 1; the width of the code is decision D24,
the pc D25). -/
def Obligations.ExitSetsTheCodeAndHalts : Prop :=
  EncodedF1 28 .exit ∧
  ∀ code s, ∃ t, exec (.exit code) s = .next t ∧ t.exitCode = s.value code ∧ t.run = .halted ∧
    t.pc = s.pc + BitVec.ofNat 32 (Instr.exit code).length ∧ OnlyRunAndExitCode s t

/-- Opcode 0 is unrecognized under every OPCODE_OF; its four opcode bytes are one-byte instructions that halt the machine with
the exit code unchanged (30_encoding.md section 5, 45_system_host.md section 1; the pc after the halt is decision D25). -/
def Obligations.OpcodeZeroHalts : Prop :=
  (∀ (c : Config) (rest : List Byte), decode c (0x00 :: rest) = .ok (.unrecZero, rest) ∧
    decode c (0x40 :: rest) = .ok (.unrecZero, rest) ∧ decode c (0x80 :: rest) = .ok (.unrecZero, rest) ∧
    decode c (0xC0 :: rest) = .ok (.unrecZero, rest)) ∧
  Instr.unrecZero.length = 1 ∧
  ∀ s, ∃ t, exec .unrecZero s = .next t ∧ t.run = .halted ∧ t.exitCode = s.exitCode ∧ t.pc = s.pc + 1 ∧ OnlyRun s t

/-- Opcodes 32..63, every opcode byte with bit 5 set, are one-byte instructions that halt the machine with the exit code
unchanged (30_encoding.md section 5, 45_system_host.md section 1; decision D5). -/
def Obligations.HighOpcodesHalt : Prop :=
  (∀ (c : Config) (b : Byte) (rest : List Byte), b.getLsbD 5 = true →
    decode c (b :: rest) = .ok (.unrecHigh (b.setWidth 5), rest)) ∧
  ∀ low s, (Instr.unrecHigh low).length = 1 ∧ ∃ t, exec (.unrecHigh low) s = .next t ∧ t.run = .halted ∧
    t.exitCode = s.exitCode ∧ t.pc = s.pc + 1 ∧ OnlyRun s t

/-- PRINTLN, PRINT and RUN on a readable string, with a host that acknowledges: one event with the string's bytes, for
PRINTLN with the byte 0x0A behind them, and nothing else changes (45_system_host.md sections 2 and 3; decisions D22, D23;
the byte 0x0A is general knowledge by 93_implementation_defined.md section 3, the acknowledgement is log entry 7). -/
def Obligations.HostInstructionsEmitTheString : Prop :=
  ∀ (a : Src) (s : State) (addr len : Word) (bytes : List Byte), addr = s.value a → 0 ≤ addr.toInt →
    addr.toInt + 4 ≤ s.cfg.memSize → len = s.mem.readWord addr.toNat → 0 ≤ len.toInt → 0 ≤ (addr + 4).toInt →
    (addr + 4).toInt + len.toInt ≤ s.cfg.memSize →
    bytes = (List.range len.toNat).map (fun k => s.mem.read (addr.toNat + 4 + k)) →
    s.hostSilentAt ≠ some s.hostLog.length →
    (∃ t, exec (.println a) s = .next t ∧ t.hostLog = s.hostLog ++ [⟨.console, bytes ++ [0x0A]⟩] ∧
      t.pc = s.pc + BitVec.ofNat 32 (Instr.println a).length ∧ OnlyHostLog s t) ∧
    (∃ t, exec (.print a) s = .next t ∧ t.hostLog = s.hostLog ++ [⟨.console, bytes⟩] ∧
      t.pc = s.pc + BitVec.ofNat 32 (Instr.print a).length ∧ OnlyHostLog s t) ∧
    (∃ t, exec (.run a) s = .next t ∧ t.hostLog = s.hostLog ++ [⟨.shell, bytes⟩] ∧
      t.pc = s.pc + BitVec.ofNat 32 (Instr.run a).length ∧ OnlyHostLog s t)

/-- PRINTLN, PRINT and RUN on a string that cannot be read: LOAD_RANGE for the length word, STRING_LENGTH for a negative
length, LOAD_RANGE for the payload, in that order, and no event (45_system_host.md section 2, 60_exceptions.md sections 2
and 3; decisions D7, D10, D11, D12, D22). -/
def Obligations.UnreadableStringsFault : Prop :=
  ∀ (a : Src) (s : State) (addr len : Word) (f : Src → Instr), f ∈ [Instr.println, Instr.print, Instr.run] →
    addr = s.value a → len = s.mem.readWord addr.toNat →
    (¬ (0 ≤ addr.toInt ∧ addr.toInt + 4 ≤ s.cfg.memSize) →
      exec (f a) s = .next (s.setRun (.faulted ⟨.loadRange, addr⟩))) ∧
    (0 ≤ addr.toInt ∧ addr.toInt + 4 ≤ s.cfg.memSize → len.toInt < 0 →
      exec (f a) s = .next (s.setRun (.faulted ⟨.stringLength, len⟩))) ∧
    (0 ≤ addr.toInt ∧ addr.toInt + 4 ≤ s.cfg.memSize → 0 ≤ len.toInt →
      ¬ (0 ≤ (addr + 4).toInt ∧ (addr + 4).toInt + len.toInt ≤ s.cfg.memSize) →
      exec (f a) s = .next (s.setRun (.faulted ⟨.loadRange, addr + 4⟩)))

/-- The one way an instruction gives no next state: PRINTLN, PRINT or RUN on a readable string whose event the host never
acknowledges leaves the machine stuck, and the outcome names that event; and such an instruction is always stuck
(45_system_host.md sections 3 and 4; decision D23, log entry 7). -/
def Obligations.OnlyASilentHostLeavesTheMachineStuck : Prop :=
  ∀ (i : Instr) (s : State) (r : Fault), exec i s = .fault r ↔
    s.hostSilentAt = some s.hostLog.length ∧ ∃ a event bytes, hostEvent i = some (a, event) ∧
      s.extractString (s.value a) = .ok bytes ∧ r = .hostSilent (event bytes)

/-! ### The default opcode numbers, and the start of a program -/

/-- Every instruction's encoding under the default parameters: its opcode number, in every mode and with every operand, and its
length (30_encoding.md sections 3 to 6; the numbers and shapes are decisions D3 and D4). -/
def Obligations.DefaultEncodings : Prop :=
  EncodedFOV 1 .mov ∧ EncodedFORV 2 .ldb ∧ EncodedFORV 3 .ldw ∧ EncodedFRRV 4 .stb ∧ EncodedFRRV 5 .stw ∧
  EncodedF1 6 .jmp ∧ EncodedF1 7 .jsr ∧ EncodedF0 8 .rts ∧
  EncodedF1 9 .beq ∧ EncodedF1 10 .bne ∧ EncodedF1 11 .blt ∧ EncodedF1 12 .ble ∧ EncodedF1 13 .bgt ∧ EncodedF1 14 .bge ∧
  EncodedFRV 15 .cmp ∧ EncodedF1 16 .push ∧ EncodedFO 17 .pop ∧
  EncodedFOV 18 .add ∧ EncodedFOV 19 .sub ∧ EncodedFOV 20 .mul ∧ EncodedFOV 21 .div ∧ EncodedFOV 22 .mod ∧
  EncodedFOV 23 .and ∧ EncodedFOV 24 .or ∧ EncodedFOV 25 .xor ∧ EncodedFOV 26 .shl ∧ EncodedFOV 27 .shr ∧
  EncodedF1 28 .exit ∧ EncodedF1 29 .println ∧ EncodedF1 30 .print ∧ EncodedF1 31 .run

/-- The stack with R255 still 0 (70_reset_and_hazards.md section 3, 20_memory.md section 6, 93_implementation_defined.md
section 1): PUSH and JSR fault with STORE_RANGE at the address -4, POP and RTS with LOAD_RANGE at the address 0, and
nothing changes but `run`. "Still" is read as: no instruction has written R255 (log entry 17). Where one has written 0 to
it, POP and RTS read the four bytes at 0, which are in memory, and complete (41_control.md section 2, 43_stack.md). -/
def Obligations.StackWithR255StillZero : Prop :=
  ∀ (s : State), s.reg 255 = 0 →
    (∀ v, exec (.push v) s = .next (s.setRun (.faulted ⟨.storeRange, 0xFFFFFFFC⟩))) ∧
    (∀ v, exec (.jsr v) s = .next (s.setRun (.faulted ⟨.storeRange, 0xFFFFFFFC⟩))) ∧
    (s.spWritten = false →
      (∀ rd, exec (.pop rd) s = .next (s.setRun (.faulted ⟨.loadRange, 0⟩))) ∧
      exec .rts s = .next (s.setRun (.faulted ⟨.loadRange, 0⟩))) ∧
    (s.spWritten = true → s.cfg.Legal →
      (∀ rd, ∃ t, exec (.pop rd) s = .next t ∧ (rd ≠ 255 → t.reg rd = s.mem.readWord 0 ∧ t.reg 255 = 4) ∧
        (rd = 255 → t.reg 255 = s.mem.readWord 0 + 4) ∧ t.pc = s.pc + 2 ∧ OnlyRegs [rd, 255] s t) ∧
      (∃ t, exec .rts s = .next t ∧ t.pc = s.mem.readWord 0 ∧ t.reg 255 = 4 ∧ OnlyRegs [255] s t))

/-- A program that reaches a byte after its image which nothing has stored to halts there with exit code 1
(70_reset_and_hazards.md section 3). -/
def Obligations.RunningPastTheImageHalts : Prop :=
  ∀ (c : Config) (image : List Nat) (bytes : List Byte) (s t : State), loadImage c image = some bytes →
    State.boot c image = some s → t.Inv → t.cfg = c → t.run = .running → bytes.length ≤ t.pc.toNat →
    t.pc.toNat < c.memSize → t.mem.read t.pc.toNat = s.mem.read t.pc.toNat →
    ∃ u, step t = .next u ∧ u.run = .halted ∧ u.exitCode = 1 ∧ u.pc = t.pc + 1 ∧ OnlyRun t u

/-- R255 counts as set from the first instruction on that wrote it: an instruction that writes it and runs to its end sets
the mark, and no other instruction and no fault changes it (70_reset_and_hazards.md section 3; log entry 17). -/
def Obligations.R255IsSetByAWriteOnly : Prop :=
  ∀ (i : Instr) (s t : State), exec i s = .next t →
    (spIndex ∉ writesRegs i → t.spWritten = s.spWritten) ∧
    (∀ r, t.run = .faulted r → s.run = .running → t.spWritten = s.spWritten) ∧
    (spIndex ∈ writesRegs i → s.run = .running → t.run = .running → t.spWritten = true)

/-- From the start until the program sets R255, every use of the stack faults: in every state that meets the invariant and in
which no instruction has written R255, PUSH, JSR, POP and RTS change nothing but `run`
(70_reset_and_hazards.md section 3, 93_implementation_defined.md section 1; log entry 17). -/
def Obligations.StackUseBeforeR255IsSetFaults : Prop :=
  ∀ (s : State), s.Inv → s.spWritten = false → ∀ (i : Instr),
    (∃ v, i = .push v ∨ i = .jsr v) ∨ (∃ rd, i = .pop rd) ∨ i = .rts →
    ∃ r, exec i s = .next (s.setRun (.faulted r)) ∧ (r.cause = .storeRange ∨ r.cause = .loadRange)
end

