-- ==== Sys2Proof/Laws/Decode.lean ====
section
/-! SUPPORT. The small laws of the decoder and the encoder: the fields of an opcode byte, the opcode numbers, and each part of
the decoder on the bytes of what it reads. -/

namespace Sys2Proof

@[simp] theorem Mode.ofBits_toBits (m : Mode) : Mode.ofBits m.toBits = m := by cases m <;> rfl

@[simp] theorem modeField_opcodeByte (m : Mode) (op : BitVec 6) : modeField (opcodeByte m op) = m := by
  have : (opcodeByte m op).extractLsb' 6 2 = m.toBits := by
    cases m <;> revert op <;> decide
  rw [modeField, this, Mode.ofBits_toBits]

@[simp] theorem opcodeField_opcodeByte (m : Mode) (op : BitVec 6) : opcodeField (opcodeByte m op) = op := by
  cases m <;> revert op <;> decide

/-! ### Opcode numbers -/

theorem defaultOpcodes_complete (op : Op) : op ∈ defaultOpcodes.toList := by cases op <;> decide

/-- A bijective OPCODE_OF has every mnemonic. -/
theorem Config.mem_opcodes {c : Config} (h : c.opcodes.toList.Nodup) (op : Op) : op ∈ c.opcodes.toList := by
  have hs := h.subperm (l₂ := defaultOpcodes.toList) fun o _ => defaultOpcodes_complete o
  exact (hs.perm_of_length_le (by simp)).mem_iff.mpr (defaultOpcodes_complete op)

theorem Config.idxOf_lt {c : Config} (h : c.opcodes.toList.Nodup) (op : Op) : c.opcodes.toList.idxOf op < 31 := by
  simpa using List.idxOf_lt_length_of_mem (Config.mem_opcodes h op)

theorem Config.toNat_opcodeOf {c : Config} (h : c.opcodes.toList.Nodup) (op : Op) :
    (c.opcodeOf op).toNat = c.opcodes.toList.idxOf op + 1 := by
  have := Config.idxOf_lt h op
  rw [Config.opcodeOf, BitVec.toNat_ofNat]
  omega

theorem Config.opAt_opcodeOf {c : Config} (h : c.opcodes.toList.Nodup) (op : Op) : c.opAt (c.opcodeOf op) = some op := by
  have hn := Config.toNat_opcodeOf h op
  have hi := Config.idxOf_lt h op
  rw [Config.opAt, dif_pos (by omega)]
  simp only [hn, Nat.add_sub_cancel]
  rw [← Vector.getElem_toList (by simpa using hi)]
  exact congrArg some (List.getElem_idxOf _)

theorem Config.opAt_eq_none {c : Config} {n : BitVec 6} (h : n = 0 ∨ 32 ≤ n.toNat) : c.opAt n = none := by
  rw [Config.opAt, dif_neg]
  rintro ⟨h1, h2⟩
  rcases h with rfl | h
  · simp at h1
  · omega

/-! ### The parts of the decoder -/

@[simp] theorem takeByte_cons (b : Byte) (rest : List Byte) : takeByte (b :: rest) = .ok (b, rest) := rfl

/-- The bytes of four bytes put together. -/
theorem extract_append (b0 b1 b2 b3 : Byte) :
    (b3 ++ b2 ++ b1 ++ b0 : Word).extractLsb' 0 8 = b0 ∧ (b3 ++ b2 ++ b1 ++ b0 : Word).extractLsb' 8 8 = b1 ∧
    (b3 ++ b2 ++ b1 ++ b0 : Word).extractLsb' 16 8 = b2 ∧ (b3 ++ b2 ++ b1 ++ b0 : Word).extractLsb' 24 8 = b3 := by
  refine ⟨?_, ?_, ?_, ?_⟩ <;> ext i hi <;> simp only [BitVec.getElem_extractLsb', BitVec.getLsbD_append]
  · simp [hi]
  · simp [show 8 + i - 8 = i by omega, hi]
  · simp [show 16 + i - 8 - 8 = i by omega, show ¬ 16 + i < 8 by omega, show ¬ 16 + i - 8 < 8 by omega, hi]
  · simp [show 24 + i - 8 - 8 - 8 = i by omega, show ¬ 24 + i < 8 by omega, show ¬ 24 + i - 8 < 8 by omega,
      show ¬ 24 + i - 8 - 8 < 8 by omega, hi]

theorem imm32_bytes (w : Word) :
    w.extractLsb' 24 8 ++ w.extractLsb' 16 8 ++ w.extractLsb' 8 8 ++ w.extractLsb' 0 8 = w := by
  ext i hi
  simp only [BitVec.getElem_append, BitVec.getElem_extractLsb']
  split
  · simp [BitVec.getLsbD, BitVec.getElem_eq_testBit_toNat]
  · split
    · simp only [BitVec.getLsbD, BitVec.getElem_eq_testBit_toNat]; congr 1; omega
    · split
      · simp only [BitVec.getLsbD, BitVec.getElem_eq_testBit_toNat]; congr 1; omega
      · simp only [BitVec.getLsbD, BitVec.getElem_eq_testBit_toNat]; congr 1; omega

/-- A final operand's bytes give it back in its own mode (R64). -/
theorem takeFinal_bytes (a : Src) (rest : List Byte) : takeFinal a.mode (a.bytes ++ rest) = .ok (a, rest) := by
  cases a with
  | reg i => rfl
  | imm8 b => rfl
  | pcrel8 d => rfl
  | imm32 w => simp only [Src.mode, Src.bytes, List.cons_append, List.nil_append, takeFinal, imm32_bytes]

theorem takeInput_bytes {isReg : Bool} {m : Mode} {a : Src} (h : a.mode = if isReg then .register else m)
    (rest : List Byte) : takeInput isReg m (a.bytes ++ rest) = .ok (a, rest) := by
  rw [takeInput, ← h, takeFinal_bytes]

/-- An input operand has one byte, or four in mode 3 (R70). -/
theorem Src.length_bytes (a : Src) : a.bytes.length = if a.mode = .immediate32 then 4 else 1 := by
  cases a <;> rfl

/-- The encoder on a recognized instruction writes its opcode byte, its output registers and its inputs (R71). -/
theorem encode_of_parts {c : Config} {i : Instr} {op : Op} {outs : List RegIx} {ins : List Src}
    (h : i.parts = some (op, outs, ins)) :
    encode c i = opcodeByte (encodingMode (c.shape op).regs ins) (c.opcodeOf op) ::
      (outs ++ (ins.map Src.bytes).flatten) := by
  cases i <;> simp only [Instr.parts, Option.some.injEq, Prod.mk.injEq, reduceCtorEq] at h <;>
    obtain ⟨rfl, rfl, rfl⟩ := h <;> rfl

/-- The decoder on an opcode byte of a recognized instruction reads its operands. -/
theorem decode_opcodeByte {c : Config} (h : c.opcodes.toList.Nodup) (op : Op) (m : Mode) (bytes : List Byte) :
    decode c (opcodeByte m (c.opcodeOf op) :: bytes) = decodeOperands c op m bytes := by
  rw [decode, opcodeField_opcodeByte, modeField_opcodeByte, Config.opAt_opcodeOf h]

/-- All a successful read of a final operand can have done: it has the mode asked for, and its bytes were in
front. -/
theorem takeFinal_ok {m : Mode} {bytes rest : List Byte} {a : Src} (h : takeFinal m bytes = .ok (a, rest)) :
    a.mode = m ∧ bytes = a.bytes ++ rest := by
  unfold takeFinal at h
  split at h <;> simp only [Except.ok.injEq, Prod.mk.injEq, reduceCtorEq] at h
  all_goals obtain ⟨rfl, rfl⟩ := h
  · exact ⟨rfl, rfl⟩
  · exact ⟨rfl, rfl⟩
  · exact ⟨rfl, rfl⟩
  · next b0 b1 b2 b3 _ =>
    obtain ⟨h0, h1, h2, h3⟩ := extract_append b0 b1 b2 b3
    exact ⟨rfl, by simp only [Src.bytes, h0, h1, h2, h3, List.cons_append, List.nil_append]⟩

end Sys2Proof
end

