-- ==== Sys2Proof/Laws/Memory.lean ====
section
/-! SUPPORT. The laws of the memory operations: what a read gives after a write, and that every operation keeps the canonical form
and the bound on the listed addresses. -/

namespace Sys2Proof.Machine

/-! ### Reading after writing a byte -/

@[simp] theorem Memory.read_nil (a : Nat) : Memory.read [] a = 0 := rfl

theorem Memory.read_of_wfFrom {m : Memory} {lo a : Nat} (h : m.wfFrom lo = true) (ha : a < lo) : m.read a = 0 := by
  induction m generalizing lo with
  | nil => rfl
  | cons cell rest ih =>
    obtain ⟨k, b⟩ := cell
    simp only [Memory.wfFrom, Bool.and_eq_true, decide_eq_true_eq] at h
    rw [Memory.read, if_neg (by omega)]
    exact ih h.2 (by omega)

theorem Memory.wfFrom_mono {m : Memory} {lo lo' : Nat} (h : m.wfFrom lo = true) (hl : lo' ≤ lo) :
    m.wfFrom lo' = true := by
  cases m with
  | nil => rfl
  | cons cell rest =>
    obtain ⟨k, b⟩ := cell
    simp only [Memory.wfFrom, Bool.and_eq_true, decide_eq_true_eq] at h ⊢
    exact ⟨⟨by omega, h.1.2⟩, h.2⟩

theorem Memory.read_cons_self (rest : Memory) (a : Nat) (b : Byte) (h : rest.read a = 0 ∨ b ≠ 0) :
    (Memory.cons a b rest).read a = b := by
  unfold Memory.cons Memory.unlisted
  split
  · next hb => rcases h with h | h
               · rw [h, hb]
               · exact absurd hb h
  · simp [Memory.read]

theorem Memory.read_cons_ne (rest : Memory) {a c : Nat} (b : Byte) (h : c ≠ a) :
    (Memory.cons a b rest).read c = rest.read c := by
  unfold Memory.cons
  split
  · rfl
  · rw [Memory.read, if_neg (fun e => h e.symm)]

/-- A write leaves every other address alone. -/
theorem Memory.read_write_ne (m : Memory) {a c : Nat} (b : Byte) (h : c ≠ a) : (m.write a b).read c = m.read c := by
  induction m with
  | nil => exact Memory.read_cons_ne [] b h
  | cons cell rest ih =>
    obtain ⟨k, x⟩ := cell
    rw [Memory.write]
    split
    · exact Memory.read_cons_ne _ b h
    · split
      · next hk => rw [Memory.read_cons_ne rest b h, Memory.read, if_neg (by omega)]
      · simp only [Memory.read, ih]

theorem Memory.read_write_self_from {m : Memory} {lo : Nat} (h : m.wfFrom lo = true) (a : Nat) (b : Byte) :
    (m.write a b).read a = b := by
  induction m generalizing lo with
  | nil => exact Memory.read_cons_self [] a b (.inl rfl)
  | cons cell rest ih =>
    obtain ⟨k, x⟩ := cell
    have hw := h
    simp only [Memory.wfFrom, Bool.and_eq_true, decide_eq_true_eq] at h
    rw [Memory.write]
    split
    · next hk =>
      refine Memory.read_cons_self _ a b (.inl ?_)
      rw [Memory.read, if_neg (by omega)]
      exact Memory.read_of_wfFrom h.2 (by omega)
    · split
      · next hk => exact Memory.read_cons_self _ a b (.inl (Memory.read_of_wfFrom h.2 (by omega)))
      · next hk =>
        rw [Memory.read, if_neg (by omega)]
        exact ih h.2

/-- A write is seen by a read of the same address. -/
theorem Memory.read_write_self {m : Memory} (h : m.wf = true) (a : Nat) (b : Byte) : (m.write a b).read a = b :=
  Memory.read_write_self_from h a b

/-- Reading any address after a write. -/
theorem Memory.read_write {m : Memory} (h : m.wf = true) (a c : Nat) (b : Byte) :
    (m.write a b).read c = if c = a then b else m.read c := by
  split
  · next hc => rw [hc, Memory.read_write_self h]
  · next hc => exact Memory.read_write_ne m b hc

/-! ### The canonical form -/

@[simp] theorem Memory.wf_nil : Memory.wf [] = true := rfl

theorem Memory.wfFrom_cons {rest : Memory} {lo a : Nat} (b : Byte) (h : rest.wfFrom (a + 1) = true) (ha : lo ≤ a) :
    (Memory.cons a b rest).wfFrom lo = true := by
  unfold Memory.cons
  split
  · exact Memory.wfFrom_mono h (by omega)
  · next hb => simp [Memory.wfFrom, ha, hb, h]

theorem Memory.wfFrom_write {m : Memory} {lo a : Nat} (b : Byte) (h : m.wfFrom lo = true) (ha : lo ≤ a) :
    (m.write a b).wfFrom lo = true := by
  induction m generalizing lo with
  | nil => exact Memory.wfFrom_cons b rfl ha
  | cons cell rest ih =>
    obtain ⟨k, x⟩ := cell
    have hw := h
    simp only [Memory.wfFrom, Bool.and_eq_true, decide_eq_true_eq] at h
    rw [Memory.write]
    split
    · next hk =>
      refine Memory.wfFrom_cons b ?_ ha
      simp only [Memory.wfFrom, Bool.and_eq_true, decide_eq_true_eq]
      exact ⟨⟨by omega, h.1.2⟩, h.2⟩
    · split
      · next hk => subst hk; exact Memory.wfFrom_cons b h.2 ha
      · next hk =>
        simp only [Memory.wfFrom, Bool.and_eq_true, decide_eq_true_eq]
        exact ⟨h.1, ih h.2 (by omega)⟩

/-- A write keeps the canonical form. -/
theorem Memory.wf_write {m : Memory} (a : Nat) (b : Byte) (h : m.wf = true) : (m.write a b).wf = true :=
  Memory.wfFrom_write b h (Nat.zero_le a)

theorem Memory.wf_writeWord {m : Memory} (a : Nat) (w : Word) (h : m.wf = true) : (m.writeWord a w).wf = true :=
  Memory.wf_write _ _ (Memory.wf_write _ _ (Memory.wf_write _ _ (Memory.wf_write _ _ h)))

theorem Memory.wf_writeBytes {m : Memory} (a : Nat) (bytes : List Byte) (h : m.wf = true) :
    (m.writeBytes a bytes).wf = true := by
  induction bytes generalizing m a with
  | nil => exact h
  | cons b rest ih => exact ih (a + 1) (Memory.wf_write a b h)

/-- Two memories in canonical form that read alike are equal data. -/
theorem Memory.ext_of_wfFrom {m m' : Memory} {lo : Nat} (h : m.wfFrom lo = true) (h' : m'.wfFrom lo = true)
    (hr : ∀ a, m.read a = m'.read a) : m = m' := by
  induction m generalizing m' lo with
  | nil =>
    cases m' with
    | nil => rfl
    | cons cell rest =>
      obtain ⟨k, b⟩ := cell
      simp only [Memory.wfFrom, Bool.and_eq_true, decide_eq_true_eq] at h'
      have := hr k
      simp only [Memory.read, if_true] at this
      exact absurd this.symm h'.1.2
  | cons cell rest ih =>
    obtain ⟨k, b⟩ := cell
    have hc := h
    simp only [Memory.wfFrom, Bool.and_eq_true, decide_eq_true_eq] at h
    cases m' with
    | nil =>
      have := hr k
      simp only [Memory.read, if_true] at this
      exact absurd this h.1.2
    | cons cell' rest' =>
      obtain ⟨k', b'⟩ := cell'
      have hc' := h'
      simp only [Memory.wfFrom, Bool.and_eq_true, decide_eq_true_eq] at h'
      have hk : k = k' := by
        rcases Nat.lt_trichotomy k k' with hlt | heq | hlt
        · have := hr k
          rw [Memory.read, if_pos rfl, Memory.read, if_neg (by omega), Memory.read_of_wfFrom h'.2 (by omega)] at this
          exact absurd this h.1.2
        · exact heq
        · have := hr k'
          rw [Memory.read, if_neg (by omega), Memory.read, if_pos rfl, Memory.read_of_wfFrom h.2 (by omega)] at this
          exact absurd this.symm h'.1.2
      subst hk
      have hb : b = b' := by simpa [Memory.read] using hr k
      subst hb
      rw [ih h.2 h'.2 fun a => ?_]
      by_cases ha : a = k
      · subst ha
        rw [Memory.read_of_wfFrom h.2 (by omega), Memory.read_of_wfFrom h'.2 (by omega)]
      · have := hr a
        rwa [Memory.read, if_neg (fun e => ha e.symm), Memory.read, if_neg (fun e => ha e.symm)] at this

theorem Memory.ext_of_wf {m m' : Memory} (h : m.wf = true) (h' : m'.wf = true) (hr : ∀ a, m.read a = m'.read a) :
    m = m' :=
  Memory.ext_of_wfFrom h h' hr

/-! ### The bound on the listed addresses -/

theorem Memory.below_cons {n : Nat} {rest : Memory} {a : Nat} (b : Byte) (h : rest.below n = true) (ha : a < n) :
    (Memory.cons a b rest).below n = true := by
  unfold Memory.cons
  split
  · exact h
  · simpa [Memory.below, ha] using h

theorem Memory.below_write {n : Nat} {m : Memory} {a : Nat} (b : Byte) (h : m.below n = true) (ha : a < n) :
    (m.write a b).below n = true := by
  induction m with
  | nil => exact Memory.below_cons b h ha
  | cons cell rest ih =>
    obtain ⟨k, x⟩ := cell
    have hr : Memory.below n rest = true := by
      simp only [Memory.below, List.all_cons, Bool.and_eq_true] at h ⊢
      exact h.2
    rw [Memory.write]
    split
    · exact Memory.below_cons b h ha
    · split
      · exact Memory.below_cons b hr ha
      · have hi := ih hr
        simp only [Memory.below, List.all_cons, Bool.and_eq_true] at h hi ⊢
        exact ⟨h.1, hi⟩

theorem Memory.below_writeWord {n : Nat} {m : Memory} {a : Nat} (w : Word) (h : m.below n = true) (ha : a + 4 ≤ n) :
    (m.writeWord a w).below n = true := by
  unfold Memory.writeWord
  exact Memory.below_write _ (Memory.below_write _ (Memory.below_write _ (Memory.below_write _ h (by omega))
    (by omega)) (by omega)) (by omega)

theorem Memory.below_writeBytes {n : Nat} {m : Memory} {a : Nat} (bytes : List Byte) (h : m.below n = true)
    (ha : a + bytes.length ≤ n) : (m.writeBytes a bytes).below n = true := by
  induction bytes generalizing m a with
  | nil => exact h
  | cons b rest ih =>
    simp only [List.length_cons] at ha
    exact ih (Memory.below_write b h (by omega)) (by omega)

theorem Memory.read_of_below {n : Nat} {m : Memory} {a : Nat} (h : m.below n = true) (ha : n ≤ a) : m.read a = 0 := by
  induction m with
  | nil => rfl
  | cons cell rest ih =>
    obtain ⟨k, x⟩ := cell
    simp only [Memory.below, List.all_cons, Bool.and_eq_true, decide_eq_true_eq] at h
    rw [Memory.read, if_neg (by omega)]
    exact ih h.2

/-! ### Words and byte strings -/

/-- Reading any address after a word was written: its four bytes, least significant at the lowest address (R42, R43). -/
theorem Memory.read_writeWord {m : Memory} (h : m.wf = true) (a c : Nat) (w : Word) :
    (m.writeWord a w).read c = if a ≤ c ∧ c < a + 4 then wordByte w (c - a) else m.read c := by
  have h0 := Memory.wf_write a (wordByte w 0) h
  have h1 := Memory.wf_write (a + 1) (wordByte w 1) h0
  have h2 := Memory.wf_write (a + 2) (wordByte w 2) h1
  rw [Memory.writeWord, Memory.read_write h2, Memory.read_write h1, Memory.read_write h0, Memory.read_write h]
  rcases Nat.lt_or_ge c a with hlt | hge
  · simp only [show c ≠ a + 3 by omega, show c ≠ a + 2 by omega, show c ≠ a + 1 by omega, show c ≠ a by omega,
      show ¬ (a ≤ c ∧ c < a + 4) by omega, if_false]
  · obtain ⟨d, rfl⟩ : ∃ d, c = a + d := ⟨c - a, by omega⟩
    match d with
    | 0 => simp
    | 1 => simp
    | 2 => simp
    | 3 => simp
    | d + 4 => simp [show ¬ (a + (d + 4) < a + 4) by omega]

theorem Memory.read_writeWord_ne {m : Memory} {a c : Nat} (w : Word) (h : c < a ∨ a + 4 ≤ c) :
    (m.writeWord a w).read c = m.read c := by
  unfold Memory.writeWord
  rw [Memory.read_write_ne _ _ (by omega), Memory.read_write_ne _ _ (by omega), Memory.read_write_ne _ _ (by omega),
    Memory.read_write_ne _ _ (by omega)]

theorem wordByte_append (w : Word) : wordByte w 3 ++ wordByte w 2 ++ wordByte w 1 ++ wordByte w 0 = w := by
  unfold wordByte
  ext i hi
  simp only [BitVec.getElem_append, BitVec.getElem_extractLsb']
  split
  · simp [BitVec.getLsbD, BitVec.getElem_eq_testBit_toNat]
  · split
    · simp only [BitVec.getLsbD, BitVec.getElem_eq_testBit_toNat]; congr 1; omega
    · split
      · simp only [BitVec.getLsbD, BitVec.getElem_eq_testBit_toNat]; congr 1; omega
      · simp only [BitVec.getLsbD, BitVec.getElem_eq_testBit_toNat]; congr 1; omega

/-- A word read where a word was written gives it back. -/
theorem Memory.readWord_writeWord {m : Memory} (h : m.wf = true) (a : Nat) (w : Word) :
    (m.writeWord a w).readWord a = w := by
  unfold Memory.readWord
  simp only [Memory.read_writeWord h]
  simpa using wordByte_append w

/-- A word is determined by its four bytes. -/
theorem Memory.readWord_congr {m m' : Memory} {a : Nat} (h : ∀ c, a ≤ c → c < a + 4 → m'.read c = m.read c) :
    m'.readWord a = m.readWord a := by
  unfold Memory.readWord
  rw [h a (by omega) (by omega), h (a + 1) (by omega) (by omega), h (a + 2) (by omega) (by omega),
    h (a + 3) (by omega) (by omega)]

theorem Memory.read_writeBytes {m : Memory} (h : m.wf = true) (a c : Nat) (bytes : List Byte) :
    (m.writeBytes a bytes).read c = if a ≤ c then (bytes[c - a]?).getD (m.read c) else m.read c := by
  induction bytes generalizing m a with
  | nil => simp [Memory.writeBytes]
  | cons b rest ih =>
    rw [Memory.writeBytes, ih (Memory.wf_write a b h), Memory.read_write h]
    rcases Nat.lt_trichotomy c a with hlt | heq | hgt
    · simp [show ¬ a + 1 ≤ c by omega, show ¬ a ≤ c by omega, show c ≠ a by omega]
    · subst heq; simp
    · obtain ⟨d, rfl⟩ : ∃ d, c = a + 1 + d := ⟨c - a - 1, by omega⟩
      simp [show a + 1 + d - a = d + 1 by omega, show a + 1 + d ≠ a by omega, show a ≤ a + 1 + d by omega]

@[simp] theorem Memory.length_readBytes (m : Memory) (a n : Nat) : (m.readBytes a n).length = n := by
  simp [Memory.readBytes]

theorem Memory.getElem_readBytes (m : Memory) (a n k : Nat) (h : k < (m.readBytes a n).length) :
    (m.readBytes a n)[k] = m.read (a + k) := by
  simp [Memory.readBytes]

end Sys2Proof.Machine
end

