-- ==== Sys2Proof/Laws/State.lean ====
section
/-! SUPPORT. What each update of the state does to each field, and the same for reading a register and for resolving an
operand. A later proof never unfolds an update. -/

namespace Sys2Proof.Machine

variable (s : State)

/-! ### setReg -/
@[simp] theorem State.spWritten_setReg (i : RegIx) (v : Word) :
    (s.setReg i v).spWritten = (s.spWritten || decide (i = spIndex)) := rfl
@[simp] theorem State.cfg_setReg (i : RegIx) (v : Word) : (s.setReg i v).cfg = s.cfg := rfl
@[simp] theorem State.pc_setReg (i : RegIx) (v : Word) : (s.setReg i v).pc = s.pc := rfl
@[simp] theorem State.flags_setReg (i : RegIx) (v : Word) : (s.setReg i v).flags = s.flags := rfl
@[simp] theorem State.mem_setReg (i : RegIx) (v : Word) : (s.setReg i v).mem = s.mem := rfl
@[simp] theorem State.run_setReg (i : RegIx) (v : Word) : (s.setReg i v).run = s.run := rfl
@[simp] theorem State.exitCode_setReg (i : RegIx) (v : Word) : (s.setReg i v).exitCode = s.exitCode := rfl
@[simp] theorem State.hostLog_setReg (i : RegIx) (v : Word) : (s.setReg i v).hostLog = s.hostLog := rfl
@[simp] theorem State.hostSilentAt_setReg (i : RegIx) (v : Word) : (s.setReg i v).hostSilentAt = s.hostSilentAt := rfl

/-! ### setPc -/
@[simp] theorem State.spWritten_setPc (v : Word) : (s.setPc v).spWritten = s.spWritten := rfl
@[simp] theorem State.cfg_setPc (v : Word) : (s.setPc v).cfg = s.cfg := rfl
@[simp] theorem State.pc_setPc (v : Word) : (s.setPc v).pc = v := rfl
@[simp] theorem State.flags_setPc (v : Word) : (s.setPc v).flags = s.flags := rfl
@[simp] theorem State.mem_setPc (v : Word) : (s.setPc v).mem = s.mem := rfl
@[simp] theorem State.run_setPc (v : Word) : (s.setPc v).run = s.run := rfl
@[simp] theorem State.exitCode_setPc (v : Word) : (s.setPc v).exitCode = s.exitCode := rfl
@[simp] theorem State.hostLog_setPc (v : Word) : (s.setPc v).hostLog = s.hostLog := rfl
@[simp] theorem State.hostSilentAt_setPc (v : Word) : (s.setPc v).hostSilentAt = s.hostSilentAt := rfl
@[simp] theorem State.reg_setPc (v : Word) (j : RegIx) : (s.setPc v).reg j = s.reg j := rfl

/-! ### setFlags -/
@[simp] theorem State.spWritten_setFlags (f : Flags) : (s.setFlags f).spWritten = s.spWritten := rfl
@[simp] theorem State.cfg_setFlags (f : Flags) : (s.setFlags f).cfg = s.cfg := rfl
@[simp] theorem State.pc_setFlags (f : Flags) : (s.setFlags f).pc = s.pc := rfl
@[simp] theorem State.flags_setFlags (f : Flags) : (s.setFlags f).flags = f := rfl
@[simp] theorem State.mem_setFlags (f : Flags) : (s.setFlags f).mem = s.mem := rfl
@[simp] theorem State.run_setFlags (f : Flags) : (s.setFlags f).run = s.run := rfl
@[simp] theorem State.exitCode_setFlags (f : Flags) : (s.setFlags f).exitCode = s.exitCode := rfl
@[simp] theorem State.hostLog_setFlags (f : Flags) : (s.setFlags f).hostLog = s.hostLog := rfl
@[simp] theorem State.hostSilentAt_setFlags (f : Flags) : (s.setFlags f).hostSilentAt = s.hostSilentAt := rfl
@[simp] theorem State.reg_setFlags (f : Flags) (j : RegIx) : (s.setFlags f).reg j = s.reg j := rfl

/-! ### setMem -/
@[simp] theorem State.spWritten_setMem (m : Memory) : (s.setMem m).spWritten = s.spWritten := rfl
@[simp] theorem State.cfg_setMem (m : Memory) : (s.setMem m).cfg = s.cfg := rfl
@[simp] theorem State.pc_setMem (m : Memory) : (s.setMem m).pc = s.pc := rfl
@[simp] theorem State.flags_setMem (m : Memory) : (s.setMem m).flags = s.flags := rfl
@[simp] theorem State.mem_setMem (m : Memory) : (s.setMem m).mem = m := rfl
@[simp] theorem State.run_setMem (m : Memory) : (s.setMem m).run = s.run := rfl
@[simp] theorem State.exitCode_setMem (m : Memory) : (s.setMem m).exitCode = s.exitCode := rfl
@[simp] theorem State.hostLog_setMem (m : Memory) : (s.setMem m).hostLog = s.hostLog := rfl
@[simp] theorem State.hostSilentAt_setMem (m : Memory) : (s.setMem m).hostSilentAt = s.hostSilentAt := rfl
@[simp] theorem State.reg_setMem (m : Memory) (j : RegIx) : (s.setMem m).reg j = s.reg j := rfl

/-! ### setRun -/
@[simp] theorem State.spWritten_setRun (r : RunState) : (s.setRun r).spWritten = s.spWritten := rfl
@[simp] theorem State.cfg_setRun (r : RunState) : (s.setRun r).cfg = s.cfg := rfl
@[simp] theorem State.pc_setRun (r : RunState) : (s.setRun r).pc = s.pc := rfl
@[simp] theorem State.flags_setRun (r : RunState) : (s.setRun r).flags = s.flags := rfl
@[simp] theorem State.mem_setRun (r : RunState) : (s.setRun r).mem = s.mem := rfl
@[simp] theorem State.run_setRun (r : RunState) : (s.setRun r).run = r := rfl
@[simp] theorem State.exitCode_setRun (r : RunState) : (s.setRun r).exitCode = s.exitCode := rfl
@[simp] theorem State.hostLog_setRun (r : RunState) : (s.setRun r).hostLog = s.hostLog := rfl
@[simp] theorem State.hostSilentAt_setRun (r : RunState) : (s.setRun r).hostSilentAt = s.hostSilentAt := rfl
@[simp] theorem State.reg_setRun (r : RunState) (j : RegIx) : (s.setRun r).reg j = s.reg j := rfl

/-! ### setExitCode -/
@[simp] theorem State.spWritten_setExitCode (v : Word) : (s.setExitCode v).spWritten = s.spWritten := rfl
@[simp] theorem State.cfg_setExitCode (v : Word) : (s.setExitCode v).cfg = s.cfg := rfl
@[simp] theorem State.pc_setExitCode (v : Word) : (s.setExitCode v).pc = s.pc := rfl
@[simp] theorem State.flags_setExitCode (v : Word) : (s.setExitCode v).flags = s.flags := rfl
@[simp] theorem State.mem_setExitCode (v : Word) : (s.setExitCode v).mem = s.mem := rfl
@[simp] theorem State.run_setExitCode (v : Word) : (s.setExitCode v).run = s.run := rfl
@[simp] theorem State.exitCode_setExitCode (v : Word) : (s.setExitCode v).exitCode = v := rfl
@[simp] theorem State.hostLog_setExitCode (v : Word) : (s.setExitCode v).hostLog = s.hostLog := rfl
@[simp] theorem State.hostSilentAt_setExitCode (v : Word) : (s.setExitCode v).hostSilentAt = s.hostSilentAt := rfl
@[simp] theorem State.reg_setExitCode (v : Word) (j : RegIx) : (s.setExitCode v).reg j = s.reg j := rfl

/-! ### setHostLog -/
@[simp] theorem State.spWritten_setHostLog (l : List HostEvent) : (s.setHostLog l).spWritten = s.spWritten := rfl
@[simp] theorem State.cfg_setHostLog (l : List HostEvent) : (s.setHostLog l).cfg = s.cfg := rfl
@[simp] theorem State.pc_setHostLog (l : List HostEvent) : (s.setHostLog l).pc = s.pc := rfl
@[simp] theorem State.flags_setHostLog (l : List HostEvent) : (s.setHostLog l).flags = s.flags := rfl
@[simp] theorem State.mem_setHostLog (l : List HostEvent) : (s.setHostLog l).mem = s.mem := rfl
@[simp] theorem State.run_setHostLog (l : List HostEvent) : (s.setHostLog l).run = s.run := rfl
@[simp] theorem State.exitCode_setHostLog (l : List HostEvent) : (s.setHostLog l).exitCode = s.exitCode := rfl
@[simp] theorem State.hostLog_setHostLog (l : List HostEvent) : (s.setHostLog l).hostLog = l := rfl
@[simp] theorem State.hostSilentAt_setHostLog (l : List HostEvent) : (s.setHostLog l).hostSilentAt = s.hostSilentAt := rfl
@[simp] theorem State.reg_setHostLog (l : List HostEvent) (j : RegIx) : (s.setHostLog l).reg j = s.reg j := rfl

@[simp] theorem State.reg_setReg (i : RegIx) (v : Word) (j : RegIx) :
    (s.setReg i v).reg j = if i = j then v else s.reg j := by
  simp only [State.reg, State.setReg, Vector.getElem_set, BitVec.toNat_inj]

/-! ### The operations made of them -/

@[simp] theorem State.raise_eq_setRun (r : FaultRecord) : s.raise r = s.setRun (.faulted r) := rfl
@[simp] theorem State.halt_eq_setRun : s.halt = s.setRun .halted := rfl
@[simp] theorem State.dropWord_eq_setReg : s.dropWord = s.setReg spIndex (s.reg spIndex + 4) := rfl
@[simp] theorem State.afterDecode_eq_setPc (i : Instr) :
    s.afterDecode i = s.setPc (s.pc + BitVec.ofNat 32 i.length) := rfl

/-! ### The state after reset -/

@[simp] theorem State.reg_reset (i : RegIx) : State.reset.reg i = 0 := by
  simp [State.reset, State.reg]

/-! ### Resolving an operand -/

@[simp] theorem State.value_reg (i : RegIx) : s.value (.reg i) = s.reg i := rfl
@[simp] theorem State.value_imm8 (b : Byte) : s.value (.imm8 b) = sext8 b := rfl
@[simp] theorem State.value_pcrel8 (d : Byte) : s.value (.pcrel8 d) = s.pc + sext8 d := rfl
@[simp] theorem State.value_imm32 (w : Word) : s.value (.imm32 w) = w := rfl

/-- An operand's value depends on the registers and the pc alone. -/
theorem State.value_congr {s t : State} (hr : ∀ i, t.reg i = s.reg i) (hp : t.pc = s.pc) (a : Src) :
    t.value a = s.value a := by
  cases a <;> simp [hr, hp]

@[simp] theorem State.value_setFlags (f : Flags) (a : Src) : (s.setFlags f).value a = s.value a := by
  cases a <;> rfl
@[simp] theorem State.value_setMem (m : Memory) (a : Src) : (s.setMem m).value a = s.value a := by
  cases a <;> rfl
@[simp] theorem State.value_setRun (r : RunState) (a : Src) : (s.setRun r).value a = s.value a := by
  cases a <;> rfl
@[simp] theorem State.value_setExitCode (v : Word) (a : Src) : (s.setExitCode v).value a = s.value a := by
  cases a <;> rfl
@[simp] theorem State.value_setHostLog (l : List HostEvent) (a : Src) :
    (s.setHostLog l).value a = s.value a := by
  cases a <;> rfl

end Sys2Proof.Machine
end

