-- ==== Sys2Proof/Laws/Ops.lean ====
section
/-! SUPPORT. One lemma for each shared operation that says all it can do: the range check, the checked accesses, the stack,
faults, branches, the arithmetic operations and the host port. -/

namespace Sys2Proof.Machine

/-! ### The range check (R44) -/

theorem State.legal_iff (s : State) (a : Word) (n : Nat) :
    s.legal a n = true ↔ 0 ≤ a.toInt ∧ a.toInt + n ≤ s.cfg.memSize := by
  simp [State.legal]

/-- The check depends on the parameters alone. -/
theorem State.legal_congr {s t : State} (h : t.cfg = s.cfg) (a : Word) (n : Nat) : t.legal a n = s.legal a n := by
  simp [State.legal, h]

@[simp] theorem State.legal_setReg (s : State) (i : RegIx) (v a : Word) (n : Nat) :
    (s.setReg i v).legal a n = s.legal a n := rfl
@[simp] theorem State.legal_setPc (s : State) (v a : Word) (n : Nat) : (s.setPc v).legal a n = s.legal a n := rfl
@[simp] theorem State.legal_setFlags (s : State) (f : Flags) (a : Word) (n : Nat) :
    (s.setFlags f).legal a n = s.legal a n := rfl
@[simp] theorem State.legal_setMem (s : State) (m : Memory) (a : Word) (n : Nat) :
    (s.setMem m).legal a n = s.legal a n := rfl

/-- A signed address that is not negative is its unsigned value. -/
theorem toInt_of_nonneg {a : Word} (h : 0 ≤ a.toInt) : a.toInt = a.toNat := by
  rw [BitVec.toInt_eq_toNat_cond] at h ⊢
  split at h <;> simp_all
  omega

/-- The bytes of a legal access are bytes of memory. -/
theorem State.toNat_add_le_of_legal {s : State} {a : Word} {n : Nat} (h : s.legal a n = true) :
    a.toNat + n ≤ s.cfg.memSize := by
  rw [State.legal_iff] at h
  have := toInt_of_nonneg h.1
  omega

theorem State.legal_iff_toNat (s : State) (a : Word) (n : Nat) :
    s.legal a n = true ↔ a.toNat < 2 ^ 31 ∧ a.toNat + n ≤ s.cfg.memSize := by
  rw [State.legal_iff, BitVec.toInt_eq_toNat_cond]
  have := a.isLt
  split <;> omega

/-! ### Checked accesses -/

theorem State.loadByte_ok_iff {s : State} {a : Word} {b : Byte} :
    s.loadByte a = .ok b ↔ s.legal a 1 = true ∧ s.mem.read a.toNat = b := by
  unfold State.loadByte; split <;> simp_all

theorem State.loadByte_error_iff {s : State} {a : Word} {r : FaultRecord} :
    s.loadByte a = .error r ↔ s.legal a 1 = false ∧ r = ⟨.loadRange, a⟩ := by
  unfold State.loadByte; split <;> constructor <;> intro h <;> simp_all

theorem State.loadWord_ok_iff {s : State} {a w : Word} :
    s.loadWord a = .ok w ↔ s.legal a 4 = true ∧ s.mem.readWord a.toNat = w := by
  unfold State.loadWord; split <;> simp_all

theorem State.loadWord_error_iff {s : State} {a : Word} {r : FaultRecord} :
    s.loadWord a = .error r ↔ s.legal a 4 = false ∧ r = ⟨.loadRange, a⟩ := by
  unfold State.loadWord; split <;> constructor <;> intro h <;> simp_all

theorem State.storeByte_ok_iff {s t : State} {a : Word} {b : Byte} :
    s.storeByte a b = .ok t ↔ s.legal a 1 = true ∧ t = s.setMem (s.mem.write a.toNat b) := by
  unfold State.storeByte; split <;> constructor <;> intro h <;> simp_all

theorem State.storeByte_error_iff {s : State} {a : Word} {b : Byte} {r : FaultRecord} :
    s.storeByte a b = .error r ↔ s.legal a 1 = false ∧ r = ⟨.storeRange, a⟩ := by
  unfold State.storeByte; split <;> constructor <;> intro h <;> simp_all

theorem State.storeWord_ok_iff {s t : State} {a w : Word} :
    s.storeWord a w = .ok t ↔ s.legal a 4 = true ∧ t = s.setMem (s.mem.writeWord a.toNat w) := by
  unfold State.storeWord; split <;> constructor <;> intro h <;> simp_all

theorem State.storeWord_error_iff {s : State} {a w : Word} {r : FaultRecord} :
    s.storeWord a w = .error r ↔ s.legal a 4 = false ∧ r = ⟨.storeRange, a⟩ := by
  unfold State.storeWord; split <;> constructor <;> intro h <;> simp_all

/-! ### The stack -/

theorem State.pushWord_ok_iff {s t : State} {w : Word} :
    s.pushWord w = .ok t ↔ s.legal s.pushAddress 4 = true ∧
      t = (s.setMem (s.mem.writeWord s.pushAddress.toNat w)).setReg spIndex s.pushAddress := by
  unfold State.pushWord State.storeWord
  by_cases hl : s.legal s.pushAddress 4 = true <;> constructor <;> intro h <;> simp_all

theorem State.pushWord_error_iff {s : State} {w : Word} {r : FaultRecord} :
    s.pushWord w = .error r ↔ s.legal s.pushAddress 4 = false ∧ r = ⟨.storeRange, s.pushAddress⟩ := by
  unfold State.pushWord State.storeWord
  by_cases hl : s.legal s.pushAddress 4 = true <;> constructor <;> intro h <;> simp_all

@[simp] theorem State.pushAddress_setPc (s : State) (v : Word) : (s.setPc v).pushAddress = s.pushAddress := rfl

theorem State.spStillZero_iff {s : State} : s.spStillZero = true ↔ s.spWritten = false ∧ s.reg spIndex = 0 := by
  simp [State.spStillZero]

/-- Once R255 is written it is no longer still 0 (R194). -/
theorem State.spStillZero_of_spWritten {s : State} (h : s.spWritten = true) : s.spStillZero = false := by
  simp [State.spStillZero, h]

theorem State.spStillZero_of_ne {s : State} (h : s.reg spIndex ≠ 0) : s.spStillZero = false := by
  rw [State.spStillZero, decide_eq_false h, Bool.and_false]

theorem State.topWord_ok_iff {s : State} {w : Word} :
    s.topWord = .ok w ↔ s.spStillZero = false ∧ s.legal (s.reg spIndex) 4 = true ∧
      s.mem.readWord (s.reg spIndex).toNat = w := by
  unfold State.topWord
  cases s.spStillZero <;> simp [State.loadWord_ok_iff]

theorem State.topWord_error_iff {s : State} {r : FaultRecord} :
    s.topWord = .error r ↔ (s.spStillZero = true ∨ s.legal (s.reg spIndex) 4 = false) ∧
      r = ⟨.loadRange, s.reg spIndex⟩ := by
  unfold State.topWord
  cases s.spStillZero
  · simp [State.loadWord_error_iff]
  · simp only [if_true, Except.error.injEq, true_or, true_and]
    exact eq_comm

/-! ### The end of an instruction -/

@[simp] theorem State.settle_ok (s t : State) : s.settle (.ok t) = .next t := rfl
@[simp] theorem State.settle_error (s : State) (r : FaultRecord) : s.settle (.error r) = .next (s.raise r) := rfl

/-- An instruction that settles gives a next state: the one it made, or that of the fault it raised. -/
theorem State.settle_next_iff {s t : State} {x : Except FaultRecord State} :
    s.settle x = .next t ↔ x = .ok t ∨ ∃ r, x = .error r ∧ t = s.raise r := by
  cases x <;> simp [eq_comm]

theorem State.alu_ok (s : State) (i : Instr) (rd : RegIx) (w : Word) :
    s.alu i rd (.ok w) = .next ((s.afterDecode i).setReg rd w) := rfl

theorem State.alu_error (s : State) (i : Instr) (rd : RegIx) (r : FaultRecord) :
    s.alu i rd (.error r) = .next (s.raise r) := rfl

/-! ### The arithmetic operations that can fault -/

theorem quotient_of_ne_zero {c : Config} {a v : Word} (hv : v.toInt ≠ 0)
    (ho : ¬ (a.toInt = -2 ^ 31 ∧ v.toInt = -1)) : quotient c a v = .ok (BitVec.ofInt 32 (a.toInt.tdiv v.toInt)) := by
  simp only [quotient, divOverflows, hv, ho, decide_false, if_false, Bool.false_eq_true]

theorem remainder_of_ne_zero {c : Config} {a v : Word} (hv : v.toInt ≠ 0)
    (ho : ¬ (a.toInt = -2 ^ 31 ∧ v.toInt = -1)) :
    remainder c a v = .ok (BitVec.ofInt 32 (a.toInt - a.toInt.tdiv v.toInt * v.toInt)) := by
  simp only [remainder, divOverflows, hv, ho, decide_false, if_false, Bool.false_eq_true]

theorem shiftAmount_of_lt {c : Config} {v : Word} (h : v.toNat < 32) : shiftAmount c v = .ok v.toNat := by
  have hi : v.toInt = v.toNat := by
    rw [BitVec.toInt_eq_toNat_cond, if_pos (by omega)]
  rw [shiftAmount, if_neg (by omega)]

/-! ### Branches -/

theorem State.branch_eq (s : State) (i : Instr) (addr : Src) (taken : Bool) :
    s.branch i addr taken = s.setPc (if taken then s.value addr else s.pc + BitVec.ofNat 32 i.length) := by
  cases taken <;> rfl

/-! ### The host port -/

theorem State.extractString_ok_iff {s : State} {addr : Word} {bytes : List Byte} :
    s.extractString addr = .ok bytes ↔ s.legal addr 4 = true ∧ 0 ≤ (s.mem.readWord addr.toNat).toInt ∧
      s.legal (addr + 4) (s.mem.readWord addr.toNat).toNat = true ∧
      bytes = s.mem.readBytes (addr + 4).toNat (s.mem.readWord addr.toNat).toNat := by
  generalize hw : s.mem.readWord addr.toNat = len
  generalize hp : addr + 4 = p
  by_cases h : s.legal addr 4 = true
  · by_cases hn : len.toInt < 0
    · simp [State.extractString, State.loadWord, h, hw, hn]
    · by_cases hl : s.legal p len.toNat = true
      · simp only [State.extractString, State.loadWord, h, hw, hp, hn, hl, if_true, if_false, Except.ok.injEq, true_and,
          Int.not_lt.mp hn]
        exact eq_comm
      · simp only [State.extractString, State.loadWord, h, hw, hp, hn, hl, if_true, if_false, false_and,
          and_false, reduceCtorEq, Bool.false_eq_true]
  · simp [State.extractString, State.loadWord, h]

theorem State.emit_eq_next {s : State} (e : HostEvent) (h : s.hostSilentAt ≠ some s.hostLog.length) :
    s.emit e = .next (s.setHostLog (s.hostLog ++ [e])) := by
  simp [State.emit, h]

theorem State.emit_eq_fault {s : State} (e : HostEvent) (h : s.hostSilentAt = some s.hostLog.length) :
    s.emit e = .fault (.hostSilent e) := by
  simp [State.emit, h]

/-- A host instruction is stuck exactly where its string is readable and the host never acknowledges the event made of
it (R157). -/
theorem State.hostCall_eq_fault_iff {s : State} {i : Instr} {a : Src} {event : List Byte → HostEvent} {r : Fault} :
    s.hostCall i a event = .fault r ↔ ∃ bytes, s.extractString (s.value a) = .ok bytes ∧
      s.hostSilentAt = some s.hostLog.length ∧ r = .hostSilent (event bytes) := by
  unfold State.hostCall
  cases s.extractString (s.value a) with
  | error _ => simp
  | ok bytes =>
    by_cases h : s.hostSilentAt = some s.hostLog.length
    · simp [State.emit, h, eq_comm]
    · simp [State.emit, h]

/-! ### The step -/

/-- All a step that gives a next state can have done (R196): the machine was running, and the step took a fetch fault
or executed the instruction it fetched. -/
theorem step_next_cases {s t : State} (h : step s = .next t) :
    s.run = .running ∧ ((∃ r, s.fetchInstr = .error r ∧ t = s.raise r) ∨ ∃ i, s.fetchInstr = .ok i ∧ exec i s = .next t) := by
  unfold step at h
  split at h
  · next hr =>
    refine ⟨hr, ?_⟩
    split at h
    · next i hi => exact .inr ⟨i, hi, h⟩
    · next r hf =>
      simp only [Host.Outcome.next.injEq] at h
      exact .inl ⟨r, hf, h.symm⟩
  · exact absurd h (by simp)
  · exact absurd h (by simp)

end Sys2Proof.Machine
end

