-- ==== Sys2Proof/Laws/PerInstr.lean ====
section
/-! SUPPORT. Facts proved for each instruction, one lemma per constructor of Instr. -/

namespace Sys2Proof.Laws.EncodingLength

open Sys2Proof

/-- The encoder writes as many bytes as the instruction is long, at least 1 and at most `maxLength` (R70). -/
def Statement (i : Instr) : Prop :=
  (∀ c, (encode c i).length = i.length) ∧ 1 ≤ i.length ∧ i.length ≤ maxLength

theorem size_le (a : Src) : a.bytes.length ≤ 4 := by
  rw [Src.length_bytes]; split <;> omega

theorem of_parts {i : Instr} {op : Op} {outs : List RegIx} {ins : List Src} (hp : i.parts = some (op, outs, ins))
    (hl : 1 + outs.length + 4 * ins.length ≤ maxLength) : Statement i := by
  have hi : i.length = 1 + outs.length + (ins.map fun a => a.bytes.length).sum := by
    rw [Instr.length, hp]
  have hs : (ins.map fun a => a.bytes.length).sum ≤ 4 * ins.length := by
    clear hp hl hi
    induction ins with
    | nil => simp
    | cons a rest ih =>
      have := size_le a
      simp only [List.map_cons, List.sum_cons, List.length_cons]
      omega
  refine ⟨fun c => ?_, by omega, by omega⟩
  rw [encode_of_parts hp, hi, List.length_cons, List.length_append, List.length_flatten, List.map_map]
  simp only [Function.comp_def]
  omega

theorem unrecZero : Statement .unrecZero := ⟨fun _ => rfl, Nat.le_of_ble_eq_true rfl, Nat.le_of_ble_eq_true rfl⟩
theorem mov (rd : RegIx) (v : Src) : Statement (.mov rd v) := of_parts rfl (Nat.le_of_ble_eq_true rfl)
theorem ldb (rd : RegIx) (base off : Src) : Statement (.ldb rd base off) := of_parts rfl (Nat.le_of_ble_eq_true rfl)
theorem ldw (rd : RegIx) (base off : Src) : Statement (.ldw rd base off) := of_parts rfl (Nat.le_of_ble_eq_true rfl)
theorem stb (v base off : Src) : Statement (.stb v base off) := of_parts rfl (Nat.le_of_ble_eq_true rfl)
theorem stw (v base off : Src) : Statement (.stw v base off) := of_parts rfl (Nat.le_of_ble_eq_true rfl)
theorem jmp (a : Src) : Statement (.jmp a) := of_parts rfl (Nat.le_of_ble_eq_true rfl)
theorem jsr (a : Src) : Statement (.jsr a) := of_parts rfl (Nat.le_of_ble_eq_true rfl)
theorem rts : Statement .rts := of_parts rfl (Nat.le_of_ble_eq_true rfl)
theorem beq (a : Src) : Statement (.beq a) := of_parts rfl (Nat.le_of_ble_eq_true rfl)
theorem bne (a : Src) : Statement (.bne a) := of_parts rfl (Nat.le_of_ble_eq_true rfl)
theorem blt (a : Src) : Statement (.blt a) := of_parts rfl (Nat.le_of_ble_eq_true rfl)
theorem ble (a : Src) : Statement (.ble a) := of_parts rfl (Nat.le_of_ble_eq_true rfl)
theorem bgt (a : Src) : Statement (.bgt a) := of_parts rfl (Nat.le_of_ble_eq_true rfl)
theorem bge (a : Src) : Statement (.bge a) := of_parts rfl (Nat.le_of_ble_eq_true rfl)
theorem cmp (a b : Src) : Statement (.cmp a b) := of_parts rfl (Nat.le_of_ble_eq_true rfl)
theorem push (a : Src) : Statement (.push a) := of_parts rfl (Nat.le_of_ble_eq_true rfl)
theorem pop (rd : RegIx) : Statement (.pop rd) := of_parts rfl (Nat.le_of_ble_eq_true rfl)
theorem add (rd : RegIx) (v : Src) : Statement (.add rd v) := of_parts rfl (Nat.le_of_ble_eq_true rfl)
theorem sub (rd : RegIx) (v : Src) : Statement (.sub rd v) := of_parts rfl (Nat.le_of_ble_eq_true rfl)
theorem mul (rd : RegIx) (v : Src) : Statement (.mul rd v) := of_parts rfl (Nat.le_of_ble_eq_true rfl)
theorem div (rd : RegIx) (v : Src) : Statement (.div rd v) := of_parts rfl (Nat.le_of_ble_eq_true rfl)
theorem mod (rd : RegIx) (v : Src) : Statement (.mod rd v) := of_parts rfl (Nat.le_of_ble_eq_true rfl)
theorem and (rd : RegIx) (v : Src) : Statement (.and rd v) := of_parts rfl (Nat.le_of_ble_eq_true rfl)
theorem or (rd : RegIx) (v : Src) : Statement (.or rd v) := of_parts rfl (Nat.le_of_ble_eq_true rfl)
theorem xor (rd : RegIx) (v : Src) : Statement (.xor rd v) := of_parts rfl (Nat.le_of_ble_eq_true rfl)
theorem shl (rd : RegIx) (v : Src) : Statement (.shl rd v) := of_parts rfl (Nat.le_of_ble_eq_true rfl)
theorem shr (rd : RegIx) (v : Src) : Statement (.shr rd v) := of_parts rfl (Nat.le_of_ble_eq_true rfl)
theorem exit (a : Src) : Statement (.exit a) := of_parts rfl (Nat.le_of_ble_eq_true rfl)
theorem println (a : Src) : Statement (.println a) := of_parts rfl (Nat.le_of_ble_eq_true rfl)
theorem print (a : Src) : Statement (.print a) := of_parts rfl (Nat.le_of_ble_eq_true rfl)
theorem run (a : Src) : Statement (.run a) := of_parts rfl (Nat.le_of_ble_eq_true rfl)
theorem unrecHigh (low : BitVec 5) : Statement (.unrecHigh low) := ⟨fun _ => rfl, Nat.le_of_ble_eq_true rfl, Nat.le_of_ble_eq_true rfl⟩

end Sys2Proof.Laws.EncodingLength
end

