-- ==== Sys2Proof/Tests/Slice0.lean ====
section
/-! SUPPORT. The session's own tests: the well-formedness smoke tests, words written out from the encodings of the spec, one-step
tests, and for each statement with hypotheses a witness that meets them. Expected results are those of
spec/95_test_vectors.md (the vector is named), or are worked out by hand from the rule that is named. -/

namespace Sys2Proof.Tests

open Sys2Proof Sys2Proof.Machine

/-! ### Helpers -/

/-- A state after reset with `code` at `pc`, some registers set, and some bytes of memory. -/
def start (pc : Word) (code : List Byte) (regs : List (RegIx × Word)) (data : List (Nat × List Byte)) : State :=
  regs.foldl (fun s r => s.setReg r.1 r.2)
    { State.reset with
      pc := pc
      mem := data.foldl (fun m d => Memory.writeBytes m d.1 d.2) (Memory.writeBytes [] pc.toNat code) }

/-- The next state of an outcome. -/
def nextOf : Result → Option State
  | .next t => some t
  | _ => none

/-- The reason of an outcome that is a fault. -/
def faultOf : Result → Option Fault
  | .fault r => some r
  | _ => none

/-- A next state with a property, from a computation. -/
theorem exists_next {r : Result} (p : State → Prop) [DecidablePred p] (h : (nextOf r).any (fun t => decide (p t)) = true) :
    ∃ t, r = .next t ∧ p t := by
  cases r with
  | next t => exact ⟨t, rfl, by simpa [nextOf] using h⟩
  | fault _ => simp [nextOf] at h
  | refused _ => simp [nextOf] at h

/-- The state after one step. -/
def after (s : State) : Option State := nextOf (step s)

/-- The state with the wrapping and masking policies. -/
def lenient (s : State) : State := { s with cfg := { s.cfg with divOverflow := .wrap, shiftRange := .mask5 } }

/-- What the decoder reads under the default parameters, where nothing is left over. -/
def read (bytes : List Byte) : Option Instr :=
  match decode Config.default bytes with
  | .ok (i, []) => some i
  | _ => none

/-- Other parameters: CMP and STB have no register input, so all their inputs share one mode, and the opcodes of MOV and
RUN are exchanged (R9, R63). -/
def otherConfig : Config :=
  { Config.default with
    cmpRegs := 0
    stbRegs := 0
    opcodes := (defaultOpcodes.set 0 Op.run).set 30 Op.mov }

/-! ### Well-formedness (R61, R62, R65): an ill-formed term for each check -/

theorem test_wf_registerInputMustBeRegister :
    (Instr.ldb 1 (.imm8 3) (.reg 2)).wellFormed Config.default = false ∧
    (Instr.stw (.reg 1) (.imm32 3) (.reg 2)).wellFormed Config.default = false ∧
    (Instr.cmp (.pcrel8 3) (.reg 2)).wellFormed Config.default = false := by decide
theorem test_wf_finalOperandsShareOneMode :
    (Instr.cmp (.imm8 3) (.reg 2)).wellFormed otherConfig = false ∧
    (Instr.stb (.imm8 3) (.imm8 2) (.imm32 1)).wellFormed otherConfig = false ∧
    (Instr.cmp (.imm8 3) (.imm8 2)).wellFormed otherConfig = true := by decide
theorem test_wf_operandCount :
    (Config.default.shape .rts).fits [.reg 0] = false ∧ (Config.default.shape .mov).fits [] = false ∧
    (Config.default.shape .mov).fits [.reg 0, .reg 1] = false := by decide
theorem test_wf_everyModeOfTheFinalOperand :
    ([Src.reg 9, .imm8 9, .pcrel8 9, .imm32 9].all fun a =>
      (Instr.mov 1 a).wellFormed Config.default && (Instr.stw (.reg 1) (.reg 2) a).wellFormed Config.default) = true := by
  decide
theorem test_legalParameters :
    Config.default.Legal ∧ otherConfig.Legal ∧ ¬ { Config.default with memSize := 2 ^ 20 - 1 }.Legal ∧
      ¬ { Config.default with opcodes := defaultOpcodes.set 0 Op.run }.Legal := by decide

/-! ### Words written out from R60, R63, R64, R67 and R71: every constructor, every format and every mode.
An opcode byte is written in binary: two bits of mode, six of opcode. -/

theorem test_decode_move :
    read [0b01000001, 0x00, 0x05] = some (.mov 0 (.imm8 5)) ∧
    read [0b11000001, 0x00, 0x78, 0x56, 0x34, 0x12] = some (.mov 0 (.imm32 0x12345678)) ∧
    read [0b11000010, 0x01, 0x02, 0x10, 0x00, 0x00, 0x00] = some (.ldb 1 (.reg 2) (.imm32 0x10)) ∧
    read [0b00000011, 0x01, 0x03, 0x04] = some (.ldw 1 (.reg 3) (.reg 4)) ∧
    read [0b10000100, 0x04, 0x03, 0xFC] = some (.stb (.reg 4) (.reg 3) (.pcrel8 0xFC)) ∧
    read [0b11000101, 0x04, 0x03, 0x00, 0x01, 0x00, 0x00] = some (.stw (.reg 4) (.reg 3) (.imm32 0x100)) := by decide
theorem test_decode_control :
    read [0b11000110, 0x00, 0x01, 0x00, 0x00] = some (.jmp (.imm32 0x100)) ∧
    read [0b10000111, 0x10] = some (.jsr (.pcrel8 0x10)) ∧ read [0b00001000] = some .rts ∧
    read [0b11001000] = some .rts ∧ read [0b10001001, 0x10] = some (.beq (.pcrel8 0x10)) ∧
    read [0b00001010, 0x07] = some (.bne (.reg 7)) ∧ read [0b01001011, 0x80] = some (.blt (.imm8 0x80)) ∧
    read [0b11001100, 0x04, 0x03, 0x02, 0x01] = some (.ble (.imm32 0x01020304)) ∧
    read [0b10001101, 0xFF] = some (.bgt (.pcrel8 0xFF)) ∧ read [0b10001110, 0x00] = some (.bge (.pcrel8 0)) := by decide
theorem test_decode_compare_stack :
    read [0b00001111, 0x00, 0x01] = some (.cmp (.reg 0) (.reg 1)) ∧
    read [0b11001111, 0x02, 0x00, 0x00, 0x00, 0x80] = some (.cmp (.reg 2) (.imm32 0x80000000)) ∧
    read [0b11010000, 0x78, 0x56, 0x34, 0x12] = some (.push (.imm32 0x12345678)) ∧
    read [0b00010001, 0x05] = some (.pop 5) ∧ read [0b11010001, 0x05] = some (.pop 5) := by decide
theorem test_decode_alu :
    read [0b00010010, 0x00, 0x01] = some (.add 0 (.reg 1)) ∧ read [0b01010011, 0x02, 0x01] = some (.sub 2 (.imm8 1)) ∧
    read [0b11010100, 0x00, 0x00, 0x00, 0x01, 0x00] = some (.mul 0 (.imm32 0x10000)) ∧
    read [0b10010101, 0x00, 0x02] = some (.div 0 (.pcrel8 2)) ∧ read [0b01010110, 0x00, 0xFE] = some (.mod 0 (.imm8 0xFE)) ∧
    read [0b01010111, 0x00, 0x0F] = some (.and 0 (.imm8 0x0F)) ∧ read [0b01011000, 0x00, 0xFF] = some (.or 0 (.imm8 0xFF)) ∧
    read [0b00011001, 0x03, 0x03] = some (.xor 3 (.reg 3)) ∧ read [0b01011010, 0x00, 0x1F] = some (.shl 0 (.imm8 0x1F)) ∧
    read [0b01011011, 0x00, 0x01] = some (.shr 0 (.imm8 1)) := by decide
theorem test_decode_host :
    read [0b00011100, 0x03] = some (.exit (.reg 3)) ∧ read [0b10011101, 0x03] = some (.println (.pcrel8 3)) ∧
    read [0b01011110, 0x10] = some (.print (.imm8 0x10)) ∧
    read [0b11011111, 0x40, 0x00, 0x00, 0x00] = some (.run (.imm32 0x40)) := by decide
theorem test_decode_unrecognized :
    read [0b00000000] = some .unrecZero ∧ read [0b11000000] = some .unrecZero ∧ read [0b00100000] = some (.unrecHigh 0) ∧
    read [0b11111111] = some (.unrecHigh 31) := by decide
/-- R63, R71 with the parameters of `otherConfig`: every input of STB is a four-byte final operand, 13 bytes in all, and
number 31 is MOV. -/
theorem test_decode_otherParameters :
    decode otherConfig [0xC4, 1, 0, 0, 0, 2, 0, 0, 0, 3, 0, 0, 0] = .ok (.stb (.imm32 1) (.imm32 2) (.imm32 3), []) ∧
    decode otherConfig [0x4F, 0x01, 0x02] = .ok (.cmp (.imm8 1) (.imm8 2), []) ∧
    decode otherConfig [0x5F, 0x00, 0x05] = .ok (.mov 0 (.imm8 5), []) := by decide
theorem test_decode_truncated :
    decode Config.default [] = .error .truncated ∧ decode Config.default [0x41, 0x00] = .error .truncated ∧
    decode Config.default [0xC1, 0x00, 0x01, 0x02, 0x03] = .error .truncated := by decide
theorem test_encode :
    encode Config.default (.stw (.reg 4) (.reg 3) (.imm32 0x12345678)) = [0xC5, 0x04, 0x03, 0x78, 0x56, 0x34, 0x12] ∧
    encode Config.default (.pop 5) = [0x11, 0x05] ∧ encode Config.default (.unrecHigh 31) = [0x3F] := by decide
theorem test_decodeTableWord :
    decodeTableWord 24 0x050041 = some (.mov 0 (.imm8 5)) ∧ decodeTableWord 8 0xDF = some (.run (.imm32 0)) ∧
    decodeTableWord 8 0 = some .unrecZero := by decide
/-- The host's question, on MOV: the word placed where step fetches runs as the first instruction after reset. -/
theorem test_withFetchWord :
    (after (State.reset.withFetchWord 24 0x050041)).map (fun t => (t.reg 0, t.pc)) = some (5, 3) := by decide

/-! ### One step of each instruction -/

/-- E2b, E3. -/
theorem test_mov :
    (after (start 0 [0x81, 0x00, 0x80] [] [])).map (fun t => (t.reg 0, t.pc)) = some (0xFFFFFF80, 3) ∧
    (after (start 0x10 [0x81, 0x00, 0xFE] [] [])).map (fun t => (t.reg 0, t.pc)) = some (0x0E, 0x13) := by decide
/-- M3, M4. -/
theorem test_ldb :
    (after (start 0 [0x42, 0x01, 0x03, 0xFF] [(3, 0x201)] [(0x200, [0x80])])).map (·.reg 1) = some 0x80 ∧
    (after (start 0 [0x42, 0x03, 0x03, 0x00] [(3, 0x200)] [(0x200, [7])])).map (·.reg 3) = some 7 := by decide
/-- M5. -/
theorem test_ldb_fault :
    (after (start 0 [0x42, 0x01, 0x03, 0x00] [(3, 0x100000)] [])).map (fun t => (t.run, t.pc)) =
      some (.faulted ⟨.loadRange, 0x100000⟩, 0) := by decide
/-- M7, M8. -/
theorem test_ldw :
    (after (start 0 [0x03, 0x01, 0x03, 0x04] [(3, 0x200), (4, 0xFFFFFFFC)] [(0x1FC, [0x11, 0x22, 0x33, 0x44])])).map
      (·.reg 1) = some 0x44332211 ∧
    (after (start 0 [0x43, 0x01, 0x03, 0x00] [(3, 0xFFFFC)] [(0xFFFFC, [1, 2, 3, 4])])).map (·.reg 1) = some 0x04030201 := by
  decide
/-- M9, M10. -/
theorem test_ldw_fault :
    (after (start 0 [0x43, 0x01, 0x03, 0x00] [(3, 0xFFFFD)] [])).map (·.run) = some (.faulted ⟨.loadRange, 0xFFFFD⟩) ∧
    (after (start 0 [0x43, 0x01, 0x03, 0xFF] [] [])).map (·.run) = some (.faulted ⟨.loadRange, 0xFFFFFFFF⟩) := by decide
/-- M12, M13. -/
theorem test_stb :
    (after (start 0 [0x44, 0x04, 0x03, 0x00] [(3, 0x200), (4, 0x1234)] [])).map (fun t => t.mem.readBytes 0x200 2) =
      some [0x34, 0] ∧
    (after (start 0 [0x44, 0x01, 0x03, 0x00] [(3, 0xFFFFF), (1, 0xAB)] [])).map (fun t => t.mem.read 0xFFFFF) = some 0xAB := by
  decide
/-- M15, M16. -/
theorem test_stw :
    (after (start 0 [0xC5, 0x04, 0x03, 0x00, 0x01, 0x00, 0x00] [(3, 0x100), (4, 0xCAFEBABE)] [])).map
      (fun t => (t.mem.readBytes 0x200 4, t.pc)) = some ([0xBE, 0xBA, 0xFE, 0xCA], 7) ∧
    (after (start 0 [0x45, 0x04, 0x03, 0x00] [(3, 0xFFFFE), (4, 0x12345678)] [])).map
      (fun t => (t.run, t.mem.readBytes 0xFFFFE 2)) = some (.faulted ⟨.storeRange, 0xFFFFE⟩, [0, 0]) := by decide
/-- C2, C3. -/
theorem test_jmp :
    (after (start 0 [0x06, 0x05] [(5, 0x40)] [])).map (·.pc) = some 0x40 ∧
    (after (start 10 [0x86, 0xFE] [] [])).map (·.pc) = some 8 := by decide
/-- C4, C8. -/
theorem test_jsr :
    (after (start 0x20 [0x87, 0x10] [(255, 0x1000)] [])).map (fun t => (t.pc, t.reg 255, t.mem.readBytes 0xFFC 4)) =
      some (0x30, 0xFFC, [0x22, 0, 0, 0]) ∧
    (after (start 0 [0x07, 0xFF] [(255, 0x1000)] [])).map (fun t => (t.pc, t.reg 255, t.mem.readBytes 0xFFC 4)) =
      some (0x1000, 0xFFC, [2, 0, 0, 0]) := by decide
/-- C5. -/
theorem test_jsr_fault :
    (after (start 0x20 [0x87, 0x10] [] [])).map (fun t => (t.run, t.pc, t.reg 255)) =
      some (.faulted ⟨.storeRange, 0xFFFFFFFC⟩, 0x20, 0) := by decide
/-- C6, C7. -/
theorem test_rts :
    (after (start 0 [0x08] [(255, 0xFFC)] [(0xFFC, [0x22, 0, 0, 0])])).map (fun t => (t.pc, t.reg 255)) =
      some (0x22, 0x1000) ∧
    (after (start 0 [0x08] [(255, 0xFFFFE)] [])).map (fun t => (t.run, t.reg 255)) =
      some (.faulted ⟨.loadRange, 0xFFFFE⟩, 0xFFFFE) := by decide
/-- The table of section 2.4, all four rows: bytes `80+op 10` at 0x20, the pc after the step. -/
theorem test_branches :
    ([(⟨true, false, false⟩, [0x30, 0x22, 0x22, 0x30, 0x22, 0x30]), (⟨false, true, false⟩, [0x22, 0x30, 0x30, 0x30, 0x22, 0x22]),
      (⟨false, false, true⟩, [0x22, 0x30, 0x22, 0x22, 0x30, 0x30]), (⟨false, false, false⟩, [0x22, 0x30, 0x22, 0x22, 0x22, 0x22])].all
      fun (row : Flags × List Word) =>
        [0x89, 0x8A, 0x8B, 0x8C, 0x8D, 0x8E].map (fun b => (after ((start 0x20 [b, 0x10] [] []).setFlags row.1)).map (·.pc)) ==
          row.2.map some) = true := by decide
/-- K5, K11. -/
theorem test_cmp :
    (after (start 0 [0x0F, 0x00, 0x01] [(0, 0x80000000), (1, 0x7FFFFFFF)] [])).map (·.flags) = some ⟨false, true, false⟩ ∧
    (after ((start 0 [0x0F, 0x00, 0x01] [(0, 1), (1, 1)] []).setFlags ⟨false, true, false⟩)).map (·.flags) =
      some ⟨true, false, false⟩ := by decide
/-- K7, K8. -/
theorem test_cmp_signed :
    (after (start 0 [0x0F, 0x00, 0x01] [(1, 0x80000000)] [])).map (·.flags) = some ⟨false, false, true⟩ ∧
    (after (start 0 [0x4F, 0x02, 0xFF] [(2, 0xFFFFFFFF)] [])).map (·.flags) = some ⟨true, false, false⟩ := by decide
/-- ST3, ST5. -/
theorem test_push :
    (after (start 0 [0x10, 0xFF] [(255, 0x1000)] [])).map (fun t => (t.reg 255, t.mem.readBytes 0xFFC 4)) =
      some (0xFFC, [0, 0x10, 0, 0]) ∧
    (after (start 0 [0x10, 0x00] [(0, 7)] [])).map (·.run) = some (.faulted ⟨.storeRange, 0xFFFFFFFC⟩) := by decide
/-- ST2, ST4. -/
theorem test_pop :
    (after (start 0 [0x11, 0x01] [(255, 0xFFC)] [(0xFFC, [7])])).map (fun t => (t.reg 1, t.reg 255)) = some (7, 0x1000) ∧
    (after (start 0 [0x11, 0xFF] [(255, 0xFFC)] [(0xFFC, [0, 5])])).map (·.reg 255) = some 0x504 := by decide
/-- ST6, ST7. -/
theorem test_pop_fault :
    (after (start 0 [0x11, 0x01] [(255, 0x100000)] [])).map (·.run) = some (.faulted ⟨.loadRange, 0x100000⟩) ∧
    (after (start 0 [0x11, 0x01] [(255, 0xFFFFFFFC)] [])).map (·.run) = some (.faulted ⟨.loadRange, 0xFFFFFFFC⟩) := by decide
/-- A1. -/
theorem test_add :
    (after (start 0 [0x12, 0x00, 0x01] [(0, 0x7FFFFFFF), (1, 1)] [])).map (·.reg 0) = some 0x80000000 := by decide
/-- A3. -/
theorem test_sub :
    (after (start 0 [0x13, 0x00, 0x01] [(0, 0x80000000), (1, 1)] [])).map (·.reg 0) = some 0x7FFFFFFF := by decide
/-- A5, A7. -/
theorem test_mul :
    (after (start 0 [0xD4, 0x00, 0x00, 0x00, 0x01, 0x00] [(0, 0x10000)] [])).map (fun t => (t.reg 0, t.pc)) = some (0, 6) ∧
    (after (start 0 [0x54, 0x00, 0xFD] [(0, 4)] [])).map (·.reg 0) = some 0xFFFFFFF4 := by decide
/-- A9, A11. -/
theorem test_div :
    (after (start 0 [0x55, 0x00, 0x02] [(0, -7)] [])).map (·.reg 0) = some (-3) ∧
    (after (start 0 [0x55, 0x00, 0xFE] [(0, -7)] [])).map (·.reg 0) = some 3 := by decide
/-- A13, A14 with both policies. -/
theorem test_div_corners :
    (after (start 0 [0x55, 0x00, 0x00] [(0, 10)] [])).map (fun t => (t.run, t.reg 0)) = some (.faulted ⟨.divideByZero, 0⟩, 10) ∧
    (after (start 0 [0x15, 0x00, 0x01] [(0, 0x80000000), (1, -1)] [])).map (·.run) = some (.faulted ⟨.divideOverflow, 0⟩) ∧
    (after (lenient (start 0 [0x15, 0x00, 0x01] [(0, 0x80000000), (1, -1)] []))).map (·.reg 0) = some 0x80000000 := by decide
/-- A16, A17. -/
theorem test_mod :
    (after (start 0 [0x56, 0x00, 0x02] [(0, -7)] [])).map (·.reg 0) = some (-1) ∧
    (after (start 0 [0x56, 0x00, 0xFE] [(0, 7)] [])).map (·.reg 0) = some 1 := by decide
/-- A19, A20 with both policies. -/
theorem test_mod_corners :
    (after (start 0 [0x56, 0x00, 0x00] [(0, 10)] [])).map (·.run) = some (.faulted ⟨.divideByZero, 0⟩) ∧
    (after (start 0 [0x16, 0x00, 0x01] [(0, 0x80000000), (1, -1)] [])).map (·.run) = some (.faulted ⟨.divideOverflow, 0⟩) ∧
    (after (lenient (start 0 [0x16, 0x00, 0x01] [(0, 0x80000000), (1, -1)] []))).map (·.reg 0) = some 0 := by decide
/-- A22, A23. -/
theorem test_and :
    (after (start 0 [0x57, 0x00, 0x80] [(0, 0x12345678)] [])).map (·.reg 0) = some 0x12345600 ∧
    (after (start 0 [0xD7, 0x00, 0xFF, 0x00, 0x00, 0x00] [(0, 0x12345678)] [])).map (·.reg 0) = some 0x78 := by decide
/-- A24, and by hand: 0x12 or 0x05 is 0x17. -/
theorem test_or :
    (after (start 0 [0x58, 0x00, 0xFF] [(0, 0x10)] [])).map (·.reg 0) = some 0xFFFFFFFF ∧
    (after (start 0 [0x58, 0x00, 0x05] [(0, 0x12)] [])).map (·.reg 0) = some 0x17 := by decide
/-- A25, A26. -/
theorem test_xor :
    (after (start 0 [0x19, 0x03, 0x03] [(3, 0xDEADBEEF)] [])).map (·.reg 3) = some 0 ∧
    (after (start 0 [0x59, 0x00, 0xFF] [(0, 0x0F0F0F0F)] [])).map (·.reg 0) = some 0xF0F0F0F0 := by decide
/-- A27, A28. -/
theorem test_shl :
    (after (start 0 [0x5A, 0x00, 0x1F] [(0, 1)] [])).map (·.reg 0) = some 0x80000000 ∧
    (after (start 0 [0x5A, 0x00, 0x01] [(0, 0x80000001)] [])).map (·.reg 0) = some 2 := by decide
/-- A30, A31 with both policies. -/
theorem test_shl_range :
    (after (start 0 [0x5A, 0x00, 0x20] [(0, 1)] [])).map (·.run) = some (.faulted ⟨.shiftRange, 0x20⟩) ∧
    (after (lenient (start 0 [0x5A, 0x00, 0x20] [(0, 1)] []))).map (·.reg 0) = some 1 ∧
    (after (lenient (start 0 [0x5A, 0x00, 0xFF] [(0, 1)] []))).map (·.reg 0) = some 0x80000000 := by decide
/-- A33, A34. -/
theorem test_shr :
    (after (start 0 [0x5B, 0x00, 0x1F] [(0, 0x80000000)] [])).map (·.reg 0) = some 0xFFFFFFFF ∧
    (after (start 0 [0x5B, 0x00, 0x01] [(0, -7)] [])).map (·.reg 0) = some (-4) := by decide
/-- A36, A37. -/
theorem test_shr_range :
    (after (start 0 [0x5B, 0x00, 0x20] [(0, 0x80000000)] [])).map (·.run) = some (.faulted ⟨.shiftRange, 0x20⟩) ∧
    (after (lenient (start 0 [0x5B, 0x00, 0x21] [(0, 0x80000000)] []))).map (·.reg 0) = some 0xC0000000 := by decide
/-- H10c. -/
theorem test_exit :
    (after (start 0 [0xDC, 0x78, 0x56, 0x34, 0x12] [] [])).map (fun t => (t.run, t.exitCode, t.pc)) =
      some (.halted, 0x12345678, 5) := by decide
/-- H1, H4. -/
theorem test_println :
    (after (start 0 [0x9D, 0x03] [] [(3, [4, 0, 0, 0, 0x74, 0x65, 0x73, 0x74])])).map (fun t => (t.hostLog, t.exitCode)) =
      some ([⟨.console, [0x74, 0x65, 0x73, 0x74, 0x0A]⟩], 1) ∧
    (after (start 0 [0x9D, 0x10] [] [])).map (·.hostLog) = some [⟨.console, [0x0A]⟩] := by decide
/-- H6, H9. -/
theorem test_println_fault :
    (after (start 0 [0x9D, 0x10] [] [(0x10, [0xFF, 0xFF, 0xFF, 0xFF])])).map (fun t => (t.run, t.hostLog)) =
      some (.faulted ⟨.stringLength, 0xFFFFFFFF⟩, []) ∧
    (after (start 0 [0xDD, 0xFE, 0xFF, 0x0F, 0x00] [] [])).map (·.run) = some (.faulted ⟨.loadRange, 0xFFFFE⟩) := by decide
/-- H2, H5. -/
theorem test_print :
    (after (start 0 [0x9E, 0x03] [] [(3, [4, 0, 0, 0, 0x74, 0x65, 0x73, 0x74])])).map (·.hostLog) =
      some [⟨.console, [0x74, 0x65, 0x73, 0x74]⟩] ∧
    (after (start 0 [0x9E, 0x10] [] [])).map (·.hostLog) = some [⟨.console, []⟩] := by decide
/-- H8. -/
theorem test_print_fault :
    (after (start 0 [0x9E, 0x10] [] [(0x10, [0xED, 0xFF, 0x0F, 0x00])])).map (·.run) = some (.faulted ⟨.loadRange, 0x14⟩) := by
  decide
/-- H3. -/
theorem test_run :
    (after (start 0 [0xDF, 0x40, 0x00, 0x00, 0x00] [] [(0x40, [2, 0, 0, 0, 0x6C, 0x73])])).map (fun t => (t.hostLog, t.pc)) =
      some ([⟨.shell, [0x6C, 0x73]⟩], 5) := by decide
/-- R157: a host that does not acknowledge the event leaves the machine stuck. -/
theorem test_run_silentHost :
    faultOf (exec (.run (.imm32 0x40)) { State.reset with hostSilentAt := some 0 }) = some (.hostSilent ⟨.shell, []⟩) := by decide
/-- H11. -/
theorem test_unrecZero :
    (after (start 0 [0x00] [] [])).map (fun t => (t.run, t.exitCode, t.pc)) = some (.halted, 1, 1) := by decide
/-- E9, E10. -/
theorem test_unrecHigh :
    (after (start 0 [0x20] [] [])).map (fun t => (t.run, t.exitCode, t.pc)) = some (.halted, 1, 1) ∧
    (after (start 0 [0xFF] [] [])).map (fun t => (t.run, t.exitCode, t.pc)) = some (.halted, 1, 1) := by decide

/-! ### The fetch and the loader -/

/-- E12, E13, E14. -/
theorem test_fetchRange :
    (after (start 0xFFFFF [0x41] [] [])).map (fun t => (t.run, t.pc)) = some (.faulted ⟨.fetchRange, 0x100000⟩, 0xFFFFF) ∧
    (after (start 0xFFFFC [0xC1, 0x00, 0x01, 0x02] [] [])).map (fun t => (t.run, t.pc)) =
      some (.faulted ⟨.fetchRange, 0x100000⟩, 0xFFFFC) ∧
    (after (start 0x100000 [] [] [])).map (fun t => (t.run, t.pc)) = some (.faulted ⟨.fetchRange, 0x100000⟩, 0x100000) := by
  decide
/-- L1, L2, L5, L6, L7: `80(`, `gGG`, `g((`, `(G(`, `((G`. -/
theorem test_unpack :
    unpack [56, 48, 40] = some [0x41, 0x00] ∧ unpack [103, 71, 71] = some [0xFF, 0xFF] ∧ unpack [103, 40, 40] = some [0xFC, 0x00] ∧
    unpack [40, 71, 40] = some [0x03, 0xE0] ∧ unpack [40, 40, 71] = some [0x00, 0x1F] := by decide
/-- L8 to L12: refused. -/
theorem test_unpack_refused :
    unpack [56, 48] = none ∧ unpack [39, 40, 40] = none ∧ unpack [104, 40, 40] = none ∧ unpack [40, 72, 40] = none ∧
    unpack [40, 40, 72] = none := by decide
/-- S1: `,9<` packs 12 34. -/
theorem test_pack : pack [0x12, 0x34] = [44, 57, 60] ∧ pack [0x41, 0x00] = [56, 48, 40] := by decide
/-- R193: an image larger than memory is refused (L14 with a MEM_SIZE of 2). -/
theorem test_load_tooLarge :
    loadImage { Config.default with memSize := 2 } [40, 40, 40, 40, 40, 40] = none ∧
    loadImage { Config.default with memSize := 2 } [40, 40, 40] = some [0, 0] := by decide
/-- L13: the empty image starts, and the first step halts at opcode 0. -/
theorem test_boot_empty :
    ((State.boot Config.default []).bind after).map (fun t => (t.run, t.exitCode)) = some (.halted, 1) := by decide

/-! ### Witnesses: for each statement with hypotheses, a state and operands that meet them -/

theorem witness_BootLoadsTheImage :
    loadImage Config.default [56, 48, 40] = some [0x41, 0x00] ∧ loadImage Config.default [56, 48] = none := by decide
theorem witness_LoaderUnpacksEachGroup :
    [103, 71, 71, 40, 40, 40].length % 3 = 0 ∧ 2 * [103, 71, 71, 40, 40, 40].length / 3 ≤ Config.default.memSize ∧
    (∀ k x, [103, 71, 71, 40, 40, 40][k]? = some x → 40 ≤ x ∧ x ≤ if k % 3 = 0 then 103 else 71) ∧
    ([0x12, 0x34] : List Byte).length % 2 = 0 := by
  refine ⟨by decide, by decide, fun k x h => ?_, by decide⟩
  match k, h with
  | 0, h | 1, h | 2, h | 3, h | 4, h | 5, h => cases h; decide
theorem witness_BootMeetsInvariant : Config.default.Legal ∧ (State.boot Config.default [103, 71, 71]).isSome = true := by decide
/-- A store at the top of memory, so the bound on the listed addresses is put to the test. -/
theorem witness_StepKeepsInvariant :
    (start 0 [0x44, 0x01, 0x03, 0x00] [(3, 0xFFFFF), (1, 0xAB)] []).Inv ∧
    ∃ t, step (start 0 [0x44, 0x01, 0x03, 0x00] [(3, 0xFFFFF), (1, 0xAB)] []) = .next t ∧ t.mem.read 0xFFFFF = 0xAB :=
  ⟨by decide, exists_next _ (by decide)⟩
theorem witness_DecodeInvertsEncode :
    Config.default.Legal ∧ (Instr.stw (.reg 255) (.reg 0) (.imm32 0xFFFFFFFF)).wellFormed Config.default = true ∧
    otherConfig.Legal ∧ (Instr.stb (.imm32 1) (.imm32 2) (.imm32 3)).wellFormed otherConfig = true := by decide
theorem witness_EncodeInvertsDecode :
    Config.default.Legal ∧ decode Config.default [0x41, 0x00, 0x05, 0x99] = .ok (.mov 0 (.imm8 5), [0x99]) ∧
    (Instr.mov 0 (.imm8 5)).parts = some (.mov, [0], [.imm8 5]) ∧ (Config.default.shape .mov).finals ≠ 0 := by decide
theorem witness_DecodingIsTotal : maxLength ≤ (List.replicate 13 (0xFF : Byte)).length := by decide
theorem witness_ModeBitsIgnoredWithoutFinalOperand :
    opcodeField 0x08 = opcodeField 0xC8 ∧
    ∀ op, Config.default.opAt (opcodeField 0x08) = some op → (Config.default.shape op).finals = 0 :=
  ⟨by decide, fun op h => by
    have : Config.default.opAt (opcodeField 0x08) = some .rts := by decide
    rw [this] at h; cases h; decide⟩
/-- The last three bytes of memory. -/
theorem witness_StepRunsTheDecodedInstruction :
    (start 0xFFFFD [0x41, 0x00, 0x05] [] []).run = .running ∧
    BytesAtPc (start 0xFFFFD [0x41, 0x00, 0x05] [] []) [0x41, 0x00, 0x05] ∧
    decode (start 0xFFFFD [0x41, 0x00, 0x05] [] []).cfg [0x41, 0x00, 0x05] = .ok (.mov 0 (.imm8 5), []) := by
  unfold BytesAtPc; decide
theorem witness_FetchFaultsAtTheFirstMissingByte :
    (start 0xFFFFE [0x41, 0x00] [] []).run = .running ∧ BytesAtPc (start 0xFFFFE [0x41, 0x00] [] []) [0x41, 0x00] ∧
    decode (start 0xFFFFE [0x41, 0x00] [] []).cfg [0x41, 0x00] = .error .truncated ∧
    (start 0xFFFFE [0x41, 0x00] [] []).legal ((start 0xFFFFE [0x41, 0x00] [] []).pc + BitVec.ofNat 32 2) 1 = false := by
  unfold BytesAtPc; decide
/-- Each way a step can end: running, halted, faulted; and a machine that is not running. -/
theorem witness_RunStateChangesAsStated :
    (State.reset.setRun .halted).run ≠ .running ∧ halts (.exit (.imm8 3)) = true ∧ halts .unrecZero = true ∧
    halts (.unrecHigh 5) = true ∧ (∃ t, step (start 0 [0x41, 0x00, 0x05] [] []) = .next t ∧ t.run = .running) ∧
    (∃ t, step State.reset = .next t ∧ t.run = .halted) ∧
    (∃ t, step (start 0 [0x10, 0x00] [] []) = .next t ∧ t.run = .faulted ⟨.storeRange, 0xFFFFFFFC⟩) :=
  ⟨by decide, rfl, rfl, rfl, exists_next _ (by decide), exists_next _ (by decide), exists_next _ (by decide)⟩
theorem witness_RunningMachineMakesAStep :
    State.reset.run = .running ∧ State.reset.hostSilentAt ≠ some State.reset.hostLog.length := by decide
/-- F1: DIV by 0 after R0 was written. -/
theorem witness_FaultsArePrecise :
    ∃ t, step (start 3 [0x55, 0x00, 0x00] [(0, 10)] []) = .next t ∧ t.run = .faulted ⟨.divideByZero, 0⟩ :=
  exists_next _ (by decide)
theorem witness_ExitCodeIsWrittenByExitOnly :
    (∃ t, step (start 0 [0x5C, 0x07] [] []) = .next t ∧ t.exitCode = 7) ∧ isExit (.mov 0 (.imm8 5)) = false :=
  ⟨exists_next _ (by decide), rfl⟩
theorem witness_FlagsAreWrittenByCmpAndReadByBranches :
    (∃ t, step (start 0 [0x0F, 0x00, 0x01] [] []) = .next t ∧ t.flags = ⟨true, false, false⟩) ∧
    readsFlags (.mov 0 (.imm8 5)) = false ∧ isCmp (.mov 0 (.imm8 5)) = false :=
  ⟨exists_next _ (by decide), rfl, rfl⟩
theorem witness_HostLogOnlyGrows :
    ∃ t, step (start 0 [0x9E, 0x10] [] []) = .next t ∧ t.hostLog = [⟨.console, []⟩] := exists_next _ (by decide)
theorem witness_ParametersStayFixed :
    ∃ t, step { State.reset with hostSilentAt := some 7 } = .next t ∧ t.hostSilentAt = some 7 := exists_next _ (by decide)
theorem witness_RegistersOutsideTheOutputsAreKept :
    ∃ t, exec (.pop 1) (start 0 [] [(255, 0xFFC)] [(0xFFC, [7])]) = .next t ∧ t.reg 1 = 7 := exists_next _ (by decide)
theorem witness_MemoryOutsideTheStoredBytesIsKept :
    (∃ t, exec (.stw (.reg 1) (.imm8 8) (.imm8 1)) (start 0 [] [(1, 0x01020304)] []) = .next t ∧ t.mem.read 12 = 1) ∧
    stores State.reset (.stw (.reg 1) (.imm8 8) (.imm8 1)) = some (9, 4) ∧
    (∃ t, exec .rts (start 0 [] [(255, 0x100)] []) = .next t ∧ t.run = .running) ∧ stores State.reset .rts = none :=
  ⟨exists_next _ (by decide), by decide, exists_next _ (by decide), by decide⟩
/-- P6, STB at the address of the next instruction; and byte 3 of a word of STW, PUSH and JSR, reached by a later fetch as
the second byte at the pc. -/
theorem witness_NextFetchSeesTheStore :
    (start 6 [] [(1, 0x5C), (255, 0x104)] []).run = .running ∧ (start 6 [] [(1, 0x5C), (255, 0x104)] []).mem.wf = true ∧
    stores (start 6 [] [(1, 0x5C)] []) (.stb (.reg 1) (.reg 2) (.imm8 10)) = some (10, 1) ∧
    (∃ t, exec (.stb (.reg 1) (.reg 2) (.imm8 10)) (start 6 [] [(1, 0x5C)] []) = .next t ∧ (t.run = .running ∧
      t.pc + BitVec.ofNat 32 0 = 10 + BitVec.ofNat 32 0 ∧ ∀ m, m ≤ 0 → t.legal (t.pc + BitVec.ofNat 32 m) 1 = true)) ∧
    ([Instr.stw (.reg 1) (.imm32 0x100) (.reg 0), .push (.reg 1), .jsr (.reg 1)].all fun i =>
      (stores (start 6 [] [(1, 0x5C), (255, 0x104)] []) i == some (0x100, 4)) &&
      (storedWord (start 6 [] [(1, 0x5C), (255, 0x104)] []) i).isSome &&
      (nextOf (exec i (start 6 [] [(1, 0x5C), (255, 0x104)] []))).any fun t =>
        t.run == .running && (t.setPc 0x102).cfg == t.cfg && (t.setPc 0x102).mem.read (0x100 + 3) == t.mem.read (0x100 + 3) &&
        (t.setPc 0x102).pc + BitVec.ofNat 32 1 == 0x100 + BitVec.ofNat 32 3 &&
        (List.range 2).all fun m => (t.setPc 0x102).legal ((t.setPc 0x102).pc + BitVec.ofNat 32 m) 1) = true :=
  ⟨by decide, by decide, by decide, exists_next _ (by decide), by decide⟩
/-- C10 and F3: a negative target and one just past memory. -/
theorem witness_JmpSetsThePc :
    State.reset.run = .running ∧
    ¬ (0 ≤ (State.reset.value (.imm32 0xFFFFFFFF)).toInt ∧
      (State.reset.value (.imm32 0xFFFFFFFF)).toInt + 1 ≤ State.reset.cfg.memSize) ∧
    ¬ (0 ≤ (State.reset.value (.imm32 0x100000)).toInt ∧
      (State.reset.value (.imm32 0x100000)).toInt + 1 ≤ State.reset.cfg.memSize) := by decide
/-- The last byte, the last word and the first byte of memory. -/
theorem witness_LoadsReadMemory_StoresWriteMemory :
    State.reset.mem.wf = true ∧
    (0xFFFFF : Word) = State.reset.value (.imm32 0xFFFFF) + State.reset.value (.imm8 0) ∧ 0 ≤ (0xFFFFF : Word).toInt ∧
    (0xFFFFF : Word).toInt + 1 ≤ State.reset.cfg.memSize ∧
    (0xFFFFC : Word) = State.reset.value (.imm32 0xFFFFD) + State.reset.value (.imm8 0xFF) ∧ 0 ≤ (0xFFFFC : Word).toInt ∧
    (0xFFFFC : Word).toInt + 4 ≤ State.reset.cfg.memSize ∧ 0 ≤ (0 : Word).toInt ∧
    (0 : Word).toInt + 4 ≤ State.reset.cfg.memSize := by decide
/-- One byte past memory, a word one byte past memory, and the address -1. -/
theorem witness_AccessesOutsideMemoryFault :
    (0x100000 : Word) = State.reset.value (.imm32 0x100000) + State.reset.value (.imm8 0) ∧
    ¬ (0 ≤ (0x100000 : Word).toInt ∧ (0x100000 : Word).toInt + 1 ≤ State.reset.cfg.memSize) ∧
    ¬ (0 ≤ (0xFFFFD : Word).toInt ∧ (0xFFFFD : Word).toInt + 4 ≤ State.reset.cfg.memSize) ∧
    ¬ (0 ≤ (0xFFFFFFFF : Word).toInt ∧ (0xFFFFFFFF : Word).toInt + 1 ≤ State.reset.cfg.memSize) := by decide
/-- STW in the last word of memory, LDW there and LDB at its last byte. -/
theorem witness_LoadsSeeTheStoredWord :
    (start 0 [] [(1, 0x01020304), (2, 0xFFFFC)] []).cfg.Legal ∧ (start 0 [] [(1, 0x01020304), (2, 0xFFFFC)] []).run = .running ∧
    (start 0 [] [(1, 0x01020304), (2, 0xFFFFC)] []).mem.wf = true ∧
    ∃ t, exec (.stw (.reg 1) (.reg 2) (.imm8 0)) (start 0 [] [(1, 0x01020304), (2, 0xFFFFC)] []) = .next t ∧
      (t.run = .running ∧ t.value (.reg 2) + t.value (.imm8 0) = 0xFFFFC ∧
        t.value (.reg 2) + t.value (.imm8 3) = 0xFFFFC + BitVec.ofNat 32 3) :=
  ⟨by decide, by decide, by decide, exists_next _ (by decide)⟩
/-- The lowest and the highest place of the stack. -/
theorem witness_JsrPushesTheReturnAddress_PushStoresItsOperand :
    (0 : Word) = (start 0 [] [(255, 4)] []).reg 255 - 4 ∧ (start 0 [] [(255, 4)] []).mem.wf = true ∧ 0 ≤ (0 : Word).toInt ∧
    (0 : Word).toInt + 4 ≤ (start 0 [] [(255, 4)] []).cfg.memSize ∧
    (0xFFFFC : Word) = (start 0 [] [(255, 0x100000)] []).reg 255 - 4 ∧ 0 ≤ (0xFFFFC : Word).toInt ∧
    (0xFFFFC : Word).toInt + 4 ≤ (start 0 [] [(255, 0x100000)] []).cfg.memSize := by decide
theorem witness_RtsPopsThePc_PopLoadsTheTop :
    (start 0 [] [(255, 0)] []).spWritten = true ∧ (0xFFFFC : Word) ≠ 0 ∧ (0xFFFFC : Word) = (start 0 [] [(255, 0xFFFFC)] [(0xFFFFC, [1, 2, 3, 4])]).reg 255 ∧ 0 ≤ (0xFFFFC : Word).toInt ∧
    (0xFFFFC : Word).toInt + 4 ≤ (start 0 [] [(255, 0xFFFFC)] []).cfg.memSize ∧
    (0x04030201 : Word).toNat = ((Memory.writeBytes [] 0xFFFFC [1, 2, 3, 4]).read 0xFFFFC).toNat +
      ((Memory.writeBytes [] 0xFFFFC [1, 2, 3, 4]).read (0xFFFFC + 1)).toNat * 2 ^ 8 +
      ((Memory.writeBytes [] 0xFFFFC [1, 2, 3, 4]).read (0xFFFFC + 2)).toNat * 2 ^ 16 +
      ((Memory.writeBytes [] 0xFFFFC [1, 2, 3, 4]).read (0xFFFFC + 3)).toNat * 2 ^ 24 ∧
    (1 : RegIx) ≠ 255 ∧ (255 : RegIx) = 255 := by decide
theorem witness_BranchesTestTheFlags :
    (Instr.bge, fun fl : Flags => fl.greater || fl.equal) ∈ ([
      (Instr.beq, fun fl => fl.equal), (Instr.bne, fun fl => !fl.equal), (Instr.blt, fun fl => fl.less),
      (Instr.ble, fun fl => fl.less || fl.equal), (Instr.bgt, fun fl => fl.greater),
      (Instr.bge, fun fl => fl.greater || fl.equal)] : List ((Src → Instr) × (Flags → Bool))) := by simp
/-- C4, and the subroutine that returns at once. -/
theorem witness_ReturnResumesAfterTheCall :
    (start 0x20 [] [(255, 0x1000)] []).run = .running ∧ (start 0x20 [] [(255, 0x1000)] []).mem.wf = true ∧
    ∃ t u : State, exec (.jsr (.pcrel8 0x10)) (start 0x20 [] [(255, 0x1000)] []) = .next t ∧ t.run = .running ∧
      u.cfg = t.cfg ∧ u.reg 255 = t.reg 255 ∧ u.spWritten = t.spWritten ∧
      ∀ k, k < 4 → u.mem.read ((t.reg 255).toNat + k) = t.mem.read ((t.reg 255).toNat + k) := by
  obtain ⟨t, h, hr⟩ := exists_next (r := exec (.jsr (.pcrel8 0x10)) (start 0x20 [] [(255, 0x1000)] []))
    (fun t => t.run = .running) (by decide)
  exact ⟨by decide, by decide, t, t, h, hr, rfl, rfl, rfl, fun _ _ => rfl⟩
theorem witness_BranchesAfterCmpFollowTheComparison :
    (∃ t u : State, exec (.cmp (.imm8 0xFF) (.imm8 0)) State.reset = .next t ∧ u.flags = t.flags) ∧
    (Instr.blt = Instr.blt ∧ ((State.reset.value (.imm8 0xFF)).toInt < (State.reset.value (.imm8 0)).toInt) =
      ((State.reset.value (.imm8 0xFF)).toInt < (State.reset.value (.imm8 0)).toInt)) :=
  ⟨⟨_, _, rfl, rfl⟩, rfl, rfl⟩
/-- R255 = 0, as after reset, for a push and a call; R255 one byte too high for a pop and a return. -/
theorem witness_StackAccessesOutsideMemoryFault :
    ¬ (0 ≤ (State.reset.reg 255 - 4).toInt ∧ (State.reset.reg 255 - 4).toInt + 4 ≤ State.reset.cfg.memSize) ∧
    ¬ (0 ≤ ((start 0 [] [(255, 0xFFFFD)] []).reg 255).toInt ∧
      ((start 0 [] [(255, 0xFFFFD)] []).reg 255).toInt + 4 ≤ State.reset.cfg.memSize) := by decide

theorem balanced_pair : Balanced [.push (.imm8 1), .pop 7] := .block (.imm8 1) 7 [] [] (by decide) .nil .nil

/-- A push and a pop around an inner pair, from the smallest stack that holds both words. -/
theorem witness_PopReturnsTheMatchingPush :
    Balanced [.push (.imm8 1), .pop 7] ∧ (6 : RegIx) ≠ 255 ∧ (start 0 [] [(0, 9), (255, 8)] []).run = .running ∧
    (start 0 [] [(0, 9), (255, 8)] []).mem.wf = true ∧
    (execList (.push (.reg 0) :: ([.push (.imm8 1), .pop 7] ++ [.pop 6])) (start 0 [] [(0, 9), (255, 8)] [])).isSome = true :=
  ⟨balanced_pair, by decide, by decide, by decide, by decide⟩
theorem witness_BalancedStackUseCompletes :
    Balanced [.push (.imm8 1), .pop 7] ∧ (start 0 [] [(255, 8)] []).run = .running ∧
    4 * (([.push (.imm8 1), .pop 7] : List Instr).length : Int) ≤ ((start 0 [] [(255, 8)] []).reg 255).toInt ∧
    ((start 0 [] [(255, 8)] []).reg 255).toInt ≤ (start 0 [] [(255, 8)] []).cfg.memSize :=
  ⟨balanced_pair, by decide, by decide, by decide⟩
theorem witness_AddSubMulWrap :
    (Instr.mul, fun a b : Int => a * b) ∈ ([
      (Instr.add, fun a b => a + b), (Instr.sub, fun a b => a - b), (Instr.mul, fun a b => a * b)] :
      List ((RegIx → Src → Instr) × (Int → Int → Int))) := by simp
/-- -2^31 by 1, and 7 by -1: next to the pair that has no quotient. -/
theorem witness_DivModTruncate :
    ((start 0 [] [(0, 0x80000000)] []).reg 0).toInt = -2 ^ 31 ∧ (State.reset.value (.imm8 1)).toInt ≠ 0 ∧
    ¬ ((-2 ^ 31 : Int) = -2 ^ 31 ∧ (State.reset.value (.imm8 1)).toInt = -1) ∧
    (State.reset.value (.imm8 0xFF)).toInt ≠ 0 ∧ ¬ ((7 : Int) = -2 ^ 31 ∧ (State.reset.value (.imm8 0xFF)).toInt = -1) := by
  decide
theorem witness_DivModCorners :
    (State.reset.value (.imm8 0)).toInt = 0 ∧ ((start 0 [] [(0, 0x80000000)] []).reg 0).toInt = -2 ^ 31 ∧
    ((start 0 [] [(0, 0x80000000)] []).value (.imm8 0xFF)).toInt = -1 ∧
    (start 0 [] [(0, 0x80000000)] []).cfg.divOverflow = .fault ∧
    (lenient (start 0 [] [(0, 0x80000000)] [])).cfg.divOverflow = .wrap := by decide
theorem witness_LogicWorksBitByBit :
    (Instr.xor, fun a b : Bool => a != b) ∈ ([
      (Instr.and, fun a b => a && b), (Instr.or, fun a b => a || b), (Instr.xor, fun a b => a != b)] :
      List ((RegIx → Src → Instr) × (Bool → Bool → Bool))) := by simp
theorem witness_ShiftsInRange :
    (State.reset.value (.imm8 0)).toInt = (0 : Nat) ∧ (State.reset.value (.imm8 31)).toInt = (31 : Nat) ∧ 31 ≤ 31 := by decide
theorem witness_ShiftsOutOfRange :
    ((State.reset.value (.imm8 0xFF)).toInt < 0 ∨ 31 < (State.reset.value (.imm8 0xFF)).toInt) ∧
    ((State.reset.value (.imm8 32)).toInt < 0 ∨ 31 < (State.reset.value (.imm8 32)).toInt) ∧
    State.reset.cfg.shiftRange = .fault ∧ (lenient State.reset).cfg.shiftRange = .mask5 := by decide
theorem witness_HighOpcodesHalt : (0x20 : Byte).getLsbD 5 = true ∧ (0xFF : Byte).getLsbD 5 = true := by decide
/-- A string whose last byte is the last byte of memory. -/
theorem witness_HostInstructionsEmitTheString :
    (0xFFFFA : Word) = (start 0 [] [] [(0xFFFFA, [2, 0, 0, 0, 0x6C, 0x73])]).value (.imm32 0xFFFFA) ∧
    0 ≤ (0xFFFFA : Word).toInt ∧ (0xFFFFA : Word).toInt + 4 ≤ State.reset.cfg.memSize ∧
    2 = (start 0 [] [] [(0xFFFFA, [2, 0, 0, 0, 0x6C, 0x73])]).mem.readWord (0xFFFFA : Word).toNat ∧ 0 ≤ (2 : Word).toInt ∧
    0 ≤ ((0xFFFFA : Word) + 4).toInt ∧ ((0xFFFFA : Word) + 4).toInt + (2 : Word).toInt ≤ State.reset.cfg.memSize ∧
    [0x6C, 0x73] = (List.range (2 : Word).toNat).map
      (fun k => (start 0 [] [] [(0xFFFFA, [2, 0, 0, 0, 0x6C, 0x73])]).mem.read ((0xFFFFA : Word).toNat + 4 + k)) ∧
    State.reset.hostSilentAt ≠ some State.reset.hostLog.length := by decide
/-- One witness for each clause: the length word one byte too high, the length -1, a payload one byte too long. -/
theorem witness_UnreadableStringsFault :
    Instr.print ∈ [Instr.println, Instr.print, Instr.run] ∧
    ¬ (0 ≤ (0xFFFFD : Word).toInt ∧ (0xFFFFD : Word).toInt + 4 ≤ State.reset.cfg.memSize) ∧
    ((0 ≤ (0x10 : Word).toInt ∧ (0x10 : Word).toInt + 4 ≤ State.reset.cfg.memSize) ∧
      ((start 0 [] [] [(0x10, [0xFF, 0xFF, 0xFF, 0xFF])]).mem.readWord (0x10 : Word).toNat).toInt < 0) ∧
    (0 ≤ ((start 0 [] [] [(0x10, [0xED, 0xFF, 0x0F, 0])]).mem.readWord (0x10 : Word).toNat).toInt ∧
      ¬ (0 ≤ ((0x10 : Word) + 4).toInt ∧ ((0x10 : Word) + 4).toInt +
        ((start 0 [] [] [(0x10, [0xED, 0xFF, 0x0F, 0])]).mem.readWord (0x10 : Word).toNat).toInt ≤ State.reset.cfg.memSize)) :=
  ⟨by simp, by decide, by decide, by decide⟩
/-- Either side of the equivalence, with the string "ls" (H3). -/
theorem witness_OnlyASilentHostLeavesTheMachineStuck :
    (∃ r, exec (.run (.imm32 0x40)) { start 0 [] [] [(0x40, [2, 0, 0, 0, 0x6C, 0x73])] with hostSilentAt := some 0 } = .fault r) ∧
    (some 0 : Option Nat) = some State.reset.hostLog.length ∧
    (∃ a event, hostEvent (.run (.imm32 0x40)) = some (a, event)) ∧
    State.extractString { start 0 [] [] [(0x40, [2, 0, 0, 0, 0x6C, 0x73])] with hostSilentAt := some 0 } 0x40 = .ok [0x6C, 0x73] :=
  ⟨⟨_, rfl⟩, rfl, ⟨_, _, rfl⟩, by decide⟩
/-- F2 and C5 for PUSH and JSR; R194 for POP and RTS; and R255 written with 0 (R103, R126). -/
theorem witness_StackWithR255StillZero :
    State.reset.reg 255 = 0 ∧ State.reset.spWritten = false ∧
    (start 8 [] [(255, 0)] [(0, [5])]).reg 255 = 0 ∧ (start 8 [] [(255, 0)] [(0, [5])]).spWritten = true ∧
    (start 8 [] [(255, 0)] [(0, [5])]).cfg.Legal ∧ (1 : RegIx) ≠ 255 ∧
    (∃ t, exec (.pop 1) (start 8 [] [(255, 0)] [(0, [5])]) = .next t ∧ (t.reg 1 = 5 ∧ t.reg 255 = 4)) ∧
    (∃ t, exec .rts (start 8 [] [(255, 0)] [(0, [5])]) = .next t ∧ (t.pc = 5 ∧ t.reg 255 = 4)) :=
  ⟨by decide, by decide, by decide, by decide, by decide, by decide, exists_next _ (by decide), exists_next _ (by decide)⟩
/-- R194, 93_implementation_defined.md section 1: POP and RTS as the first instruction after reset. -/
theorem test_popAndRts_r255StillZero :
    (after (start 0 [0x11, 0x01] [] [])).map (fun t => (t.run, t.pc, t.reg 255)) = some (.faulted ⟨.loadRange, 0⟩, 0, 0) ∧
    (after (start 0 [0x08] [] [])).map (fun t => (t.run, t.pc, t.reg 255)) = some (.faulted ⟨.loadRange, 0⟩, 0, 0) := by decide
/-- A write of R255, a write of another register, and a fault. -/
theorem witness_R255IsSetByAWriteOnly :
    (∃ t, exec (.mov 255 (.imm8 8)) State.reset = .next t ∧ (t.run = .running ∧ t.spWritten = true)) ∧
    spIndex ∈ writesRegs (.mov 255 (.imm8 8)) ∧
    (∃ t, exec (.mov 254 (.imm8 8)) State.reset = .next t ∧ t.spWritten = false) ∧
    spIndex ∉ writesRegs (.mov 254 (.imm8 8)) ∧
    (∃ t, exec (.pop 255) State.reset = .next t ∧ t.run = .faulted ⟨.loadRange, 0⟩) :=
  ⟨exists_next _ (by decide), by decide, exists_next _ (by decide), by decide, exists_next _ (by decide)⟩
theorem witness_StackUseBeforeR255IsSetFaults :
    State.reset.Inv ∧ State.reset.spWritten = false ∧ ∃ rd, Instr.pop 7 = .pop rd := ⟨by decide, rfl, 7, rfl⟩
/-- P7's image with its byte of padding: the first byte after it, and the last byte of memory. -/
theorem witness_RunningPastTheImageHalts :
    loadImage Config.default (pack [0x41, 0x00, 0x05, 0x00]) = some [0x41, 0x00, 0x05, 0x00] ∧
    ([4, 0xFFFFF] : List Word).all (fun pc => (State.boot Config.default (pack [0x41, 0x00, 0x05, 0x00])).any fun s =>
      decide ((s.setPc pc).Inv ∧ (s.setPc pc).cfg = Config.default ∧ (s.setPc pc).run = .running ∧
        4 ≤ (s.setPc pc).pc.toNat ∧ (s.setPc pc).pc.toNat < Config.default.memSize ∧
        (s.setPc pc).mem.read pc.toNat = s.mem.read pc.toNat)) = true := by decide

end Sys2Proof.Tests
end

section
/-! The decoder is total (spec/30_encoding.md R72): each part of it reads within a fixed number of bytes, a format needs
the sum of what its parts need, and the window of a fetch is short only where memory ends. -/

namespace Sys2Proof

/-- A part of the decoder that never fails on `n` bytes or more, and takes at most `n` of them. -/
def ReadsWithin {α : Type} (n : Nat) (read : List Byte → Decoded α) : Prop :=
  ∀ bytes : List Byte, n ≤ bytes.length → ∃ a rest, read bytes = .ok (a, rest) ∧ bytes.length ≤ rest.length + n

theorem ReadsWithin.mono {α : Type} {n k : Nat} {read : List Byte → Decoded α} (h : ReadsWithin n read) (hnk : n ≤ k) :
    ReadsWithin k read := by
  intro bytes hk
  obtain ⟨a, rest, ha, hl⟩ := h bytes (hnk.trans hk)
  exact ⟨a, rest, ha, by omega⟩

/-- One part of the decoder, then another that is given its value: the shape of every format (R61). -/
theorem ReadsWithin.andThen {α β : Type} {n k : Nat} {read : List Byte → Decoded α} {next : α → List Byte → Decoded β}
    {both : List Byte → Decoded β} (hr : ReadsWithin n read) (hn : ∀ a, ReadsWithin k (next a))
    (hboth : ∀ {bytes a rest}, read bytes = .ok (a, rest) → both bytes = next a rest) : ReadsWithin (n + k) both := by
  intro bytes h
  obtain ⟨a, rest, ha, hl⟩ := hr bytes (by omega)
  obtain ⟨b, rest', hb, hl'⟩ := hn a rest (by omega)
  exact ⟨b, rest', (hboth ha).trans hb, by omega⟩

theorem readsWithin_ok {α : Type} (a : α) : ReadsWithin 0 fun bytes => .ok (a, bytes) :=
  fun bytes _ => ⟨a, bytes, rfl, Nat.le_refl _⟩

/-! ### The operands -/

theorem takeByte_readsWithin : ReadsWithin 1 takeByte
  | b :: rest, _ => ⟨b, rest, rfl, Nat.le_refl _⟩

/-- Every byte, and every four bytes, are an operand in the mode that takes them (R64, R72). -/
theorem takeFinal_readsWithin (m : Mode) : ReadsWithin 4 (takeFinal m)
  | b0 :: b1 :: b2 :: b3 :: rest, _ => by
    cases m with
    | register => exact ⟨.reg b0, b1 :: b2 :: b3 :: rest, rfl, by simp⟩
    | immediate8 => exact ⟨.imm8 b0, b1 :: b2 :: b3 :: rest, rfl, by simp⟩
    | pcRelative8 => exact ⟨.pcrel8 b0, b1 :: b2 :: b3 :: rest, rfl, by simp⟩
    | immediate32 => exact ⟨.imm32 (b3 ++ b2 ++ b1 ++ b0), rest, rfl, by simp⟩

theorem takeInput_readsWithin (isReg : Bool) (m : Mode) : ReadsWithin 4 (takeInput isReg m) :=
  takeFinal_readsWithin _

/-! ### The formats (R70) -/

theorem decodeF1_readsWithin (regs : Nat) (m : Mode) (f : Src → Instr) : ReadsWithin 4 (decodeF1 regs m f) :=
  (takeInput_readsWithin _ m).andThen (fun a => readsWithin_ok (f a)) fun h => by rw [decodeF1, h]

theorem decodeFO_readsWithin (f : RegIx → Instr) : ReadsWithin 1 (decodeFO f) :=
  takeByte_readsWithin.andThen (fun rd => readsWithin_ok (f rd)) fun h => by rw [decodeFO, h]

theorem decodeFOV_readsWithin (m : Mode) (f : RegIx → Src → Instr) : ReadsWithin 5 (decodeFOV m f) :=
  takeByte_readsWithin.andThen (fun rd => decodeF1_readsWithin 0 m (f rd)) fun h => by rw [decodeFOV, h]

theorem decodeFRV_readsWithin (regs : Nat) (m : Mode) (f : Src → Src → Instr) :
    ReadsWithin 8 (decodeFRV regs m f) :=
  (takeInput_readsWithin _ m).andThen (fun a => decodeF1_readsWithin (regs - 1) m (f a)) fun h => by rw [decodeFRV, h]

theorem decodeFORV_readsWithin (regs : Nat) (m : Mode) (f : RegIx → Src → Src → Instr) :
    ReadsWithin 9 (decodeFORV regs m f) :=
  takeByte_readsWithin.andThen (fun rd => decodeFRV_readsWithin regs m (f rd)) fun h => by rw [decodeFORV, h]

theorem decodeFRRV_readsWithin (regs : Nat) (m : Mode) (f : Src → Src → Src → Instr) :
    ReadsWithin 12 (decodeFRRV regs m f) :=
  (takeInput_readsWithin _ m).andThen (fun a => decodeFRV_readsWithin (regs - 1) m (f a)) fun h => by rw [decodeFRRV, h]

/-! ### The decoder -/

theorem decodeOperands_readsWithin (c : Config) (op : Op) (m : Mode) : ReadsWithin 12 (decodeOperands c op m) := by
  cases op with
  | rts => exact (readsWithin_ok Instr.rts).mono (by decide)
  | pop => exact (decodeFO_readsWithin _).mono (by decide)
  | jmp | jsr | beq | bne | blt | ble | bgt | bge | push | exit | println | print | run =>
    exact (decodeF1_readsWithin _ m _).mono (by decide)
  | mov | add | sub | mul | div | mod | and | or | xor | shl | shr =>
    exact (decodeFOV_readsWithin m _).mono (by decide)
  | cmp => exact (decodeFRV_readsWithin _ m _).mono (by decide)
  | ldb | ldw => exact (decodeFORV_readsWithin _ m _).mono (by decide)
  | stb | stw => exact decodeFRRV_readsWithin _ m _

theorem decode_readsWithin (c : Config) : ReadsWithin maxLength (decode c)
  | b :: rest, h => by
    simp only [decode]
    cases c.opAt (opcodeField b) with
    | none => exact ⟨unrecognized b, rest, rfl, by simp [maxLength]⟩
    | some op =>
      obtain ⟨i, rest', hi, hl⟩ := decodeOperands_readsWithin c op (modeField b) rest (by simpa [maxLength] using h)
      exact ⟨i, rest', hi, by simpa [maxLength] using hl⟩

theorem exists_decode_eq_ok (c : Config) {bytes : List Byte} (h : maxLength ≤ bytes.length) :
    ∃ i rest, decode c bytes = .ok (i, rest) := by
  obtain ⟨i, rest, hi, -⟩ := decode_readsWithin c bytes h
  exact ⟨i, rest, hi⟩

end Sys2Proof

namespace Sys2Proof.Machine

/-- A fetch that got fewer bytes than it asked for stopped at a byte outside memory (R60). -/
theorem State.legal_end_of_fetchBytes {s : State} {a : Word} {n : Nat} (h : (s.fetchBytes a n).length < n) :
    s.legal (a + BitVec.ofNat 32 (s.fetchBytes a n).length) 1 = false := by
  induction n generalizing a with
  | zero => exact absurd h (Nat.not_lt_zero _)
  | succ n ih =>
    by_cases ha : s.legal a 1 = true
    · simp only [State.fetchBytes, ha, if_true, List.length_cons, Nat.succ_lt_succ_iff] at h ⊢
      have hnext : a + BitVec.ofNat 32 ((s.fetchBytes (a + 1) n).length + 1) =
          a + 1 + BitVec.ofNat 32 (s.fetchBytes (a + 1) n).length := by
        rw [Nat.add_comm, BitVec.ofNat_add]
        exact (BitVec.add_assoc _ _ _).symm
      rw [hnext]
      exact ih h
    · simp [State.fetchBytes, ha]

/-- All a fetch can do: decode an instruction, or fail at the byte after the window, which is outside memory. -/
theorem State.fetchInstr_cases (s : State) :
    (∃ i, s.fetchInstr = .ok i) ∨
      s.fetchInstr = .error ⟨.fetchRange, s.pc + BitVec.ofNat 32 s.fetchWindow.length⟩ ∧
        s.legal (s.pc + BitVec.ofNat 32 s.fetchWindow.length) 1 = false := by
  cases hd : decode s.cfg s.fetchWindow with
  | ok r => exact .inl ⟨r.1, by rw [State.fetchInstr, hd]⟩
  | error e =>
    have hshort : s.fetchWindow.length < maxLength := by
      by_contra hlong
      obtain ⟨i, rest, hi⟩ := exists_decode_eq_ok s.cfg (Nat.le_of_not_lt hlong)
      exact absurd (hd.symm.trans hi) (by simp)
    exact .inr ⟨by rw [State.fetchInstr, hd], State.legal_end_of_fetchBytes hshort⟩

/-- Settles O10: every format reads within 13 bytes, so a decoding that fails had a short window. -/
theorem decodingIsTotal : Obligations.DecodingIsTotal := by
  refine ⟨fun c _ h => exists_decode_eq_ok c h, fun s => ?_⟩
  exact s.fetchInstr_cases.imp_right fun h => ⟨_, h⟩

end Sys2Proof.Machine
end

section
/-! The values of the final operands (spec/30_encoding.md R64), as numbers. -/

namespace Sys2Proof.Machine

theorem toNat_sext8 (b : Byte) :
    (sext8 b).toNat = if b.toNat < 128 then b.toNat else b.toNat + (2 ^ 32 - 256) := by
  have hb := b.isLt
  rw [sext8, BitVec.toNat_signExtend, BitVec.toNat_setWidth, BitVec.msb_eq_decide]
  simp only [decide_eq_true_eq]
  split <;> split <;> omega

theorem toInt_sext8 (b : Byte) :
    (sext8 b).toInt = if b.toNat < 128 then (b.toNat : Int) else b.toNat - 256 := by
  have hb := b.isLt
  rw [BitVec.toInt_eq_toNat_cond, toNat_sext8]
  by_cases h : b.toNat < 128 <;> simp only [h, if_true, if_false] <;> split <;> omega

/-- Four bytes put together are the little-endian number of R42. -/
theorem toNat_append_bytes (b0 b1 b2 b3 : Byte) :
    (b3 ++ b2 ++ b1 ++ b0 : Word).toNat = b0.toNat + b1.toNat * 2 ^ 8 + b2.toNat * 2 ^ 16 + b3.toNat * 2 ^ 24 := by
  have h (n : Nat) (x : BitVec n) (b : Byte) : (x ++ b).toNat = x.toNat * 2 ^ 8 + b.toNat := by
    rw [BitVec.toNat_append, ← Nat.shiftLeft_add_eq_or_of_lt b.isLt, Nat.shiftLeft_eq]
  rw [h, h, h]
  omega

/-- Settles O13: each mode's operand is read off its bytes, and its value is the number that R64 gives. -/
theorem finalOperandsResolveByMode : Obligations.FinalOperandsResolveByMode := by
  intro s b0 b1 b2 b3 rest
  refine ⟨⟨.reg b0, rfl, s.value_reg b0⟩, ⟨.imm8 b0, rfl, ?_⟩, ⟨.pcrel8 b0, rfl, ?_⟩,
    ⟨.imm32 (b3 ++ b2 ++ b1 ++ b0), rfl, ?_⟩⟩
  · rw [State.value_imm8, toInt_sext8]
  · rw [State.value_pcrel8, BitVec.toNat_add, toNat_sext8]
  · rw [State.value_imm32, toNat_append_bytes]

end Sys2Proof.Machine
end

section
/-! The default encodings of format FOV (spec/30_encoding.md R60, R67, R71), and the frame of an instruction whose one
effect is a register. -/

namespace Sys2Proof

/-! ### The opcode byte `mode*64 + n` (R60) -/

theorem modeField_ofNat (m : BitVec 2) {n : Nat} (hn : n < 64) :
    modeField (BitVec.ofNat 8 (m.toNat * 64 + n)) = Mode.ofBits m := by
  have hm : (BitVec.ofNat 8 (m.toNat * 64 + n)).extractLsb' 6 2 = m := by
    apply BitVec.eq_of_toNat_eq
    rw [BitVec.extractLsb'_toNat, BitVec.toNat_ofNat, Nat.shiftRight_eq_div_pow]
    omega
  rw [modeField, hm]

theorem opcodeField_ofNat (m : BitVec 2) (n : Nat) :
    opcodeField (BitVec.ofNat 8 (m.toNat * 64 + n)) = BitVec.ofNat 6 n := by
  apply BitVec.eq_of_toNat_eq
  rw [opcodeField, BitVec.extractLsb'_toNat, BitVec.toNat_ofNat, BitVec.toNat_ofNat, Nat.shiftRight_zero]
  omega

/-- The decoder on an opcode byte written as a number, in every mode and under every OPCODE_OF. -/
theorem decode_ofNat {c : Config} {n : Nat} {op : Op} (hn : n < 64) (hop : c.opAt (BitVec.ofNat 6 n) = some op)
    (m : BitVec 2) (bytes : List Byte) :
    decode c (BitVec.ofNat 8 (m.toNat * 64 + n) :: bytes) = decodeOperands c op (Mode.ofBits m) bytes := by
  rw [decode, opcodeField_ofNat, modeField_ofNat m hn, hop]

/-! ### Format FOV -/

theorem decodeF1_bytes (f : Src → Instr) (v : Src) (rest : List Byte) :
    decodeF1 0 v.mode f (v.bytes ++ rest) = .ok (f v, rest) := by
  rw [decodeF1, takeInput_bytes rfl]

theorem decodeFOV_bytes (f : RegIx → Src → Instr) (rd : RegIx) (v : Src) (rest : List Byte) :
    decodeFOV v.mode f (rd :: (v.bytes ++ rest)) = .ok (f rd v, rest) := by
  rw [decodeFOV, takeByte_cons]
  exact decodeF1_bytes (f rd) v rest

end Sys2Proof

namespace Sys2Proof.Machine

/-- An instruction that the decoder reads in format FOV has the default encoding of that format (R71). -/
theorem encodedFOV_of_decodeOperands {n : Nat} {op : Op} {f : RegIx → Src → Instr} (hn : n < 64)
    (hop : Config.default.opAt (BitVec.ofNat 6 n) = some op)
    (hdecode : ∀ m, decodeOperands Config.default op m = decodeFOV m f)
    (hparts : ∀ rd v, (f rd v).parts = some (op, [rd], [v])) : EncodedFOV n f := by
  intro rd v rest
  constructor
  · rw [decode_ofNat hn hop, Mode.ofBits_toBits, hdecode, decodeFOV_bytes]
  · have hlen : (f rd v).length = 2 + v.bytes.length := by simp [Instr.length, hparts]
    rw [hlen, Src.length_bytes]
    split <;> rfl

/-- Advancing the pc and writing one register leaves everything else as it was. -/
theorem onlyRegs_afterDecode_setReg (s : State) (i : Instr) (rd : RegIx) (w : Word) :
    OnlyRegs [rd] s ((s.afterDecode i).setReg rd w) := by
  refine ⟨⟨fun r hr => ?_, fun hsp => ?_⟩, fun _ => rfl, rfl, rfl, rfl, rfl, rfl, rfl⟩
  · have hne : rd ≠ r := fun h => hr (List.mem_singleton.mpr h.symm)
    simp [hne]
  · have hne : rd ≠ spIndex := fun h => hsp (List.mem_singleton.mpr h.symm)
    simp [hne]

theorem exec_mov (rd : RegIx) (v : Src) (s : State) :
    exec (.mov rd v) s = .next ((s.afterDecode (.mov rd v)).setReg rd (s.value v)) := rfl

/-- Settles O26: MOV is the register write after the pc has advanced, with the operand resolved before both (R91). -/
theorem movCopiesItsOperand : Obligations.MovCopiesItsOperand := by
  refine ⟨encodedFOV_of_decodeOperands (by decide) (by decide) (fun _ => rfl) (fun _ _ => rfl), fun rd v s => ?_⟩
  exact ⟨_, exec_mov rd v s, by simp, by simp, onlyRegs_afterDecode_setReg s _ rd _⟩

end Sys2Proof.Machine
end

section
/-! The arithmetic and logic instructions that raise no fault (spec/44_alu.md R130), and the three that work bit by bit
(R137 to R139). -/

namespace Sys2Proof.Machine

/-- The common form with a result completes: it writes that result, moves past the instruction and changes nothing else. -/
theorem State.exists_alu_ok_eq_next (s : State) (i : Instr) (rd : RegIx) (w : Word) :
    ∃ t, s.alu i rd (.ok w) = .next t ∧ t.reg rd = w ∧ t.pc = s.pc + BitVec.ofNat 32 i.length ∧ OnlyRegs [rd] s t :=
  ⟨_, s.alu_ok i rd w, by simp, by simp, onlyRegs_afterDecode_setReg s i rd w⟩

theorem exec_and (rd : RegIx) (v : Src) (s : State) :
    exec (.and rd v) s = s.alu (.and rd v) rd (.ok (s.reg rd &&& s.value v)) := rfl

theorem exec_or (rd : RegIx) (v : Src) (s : State) :
    exec (.or rd v) s = s.alu (.or rd v) rd (.ok (s.reg rd ||| s.value v)) := rfl

theorem exec_xor (rd : RegIx) (v : Src) (s : State) :
    exec (.xor rd v) s = s.alu (.xor rd v) rd (.ok (s.reg rd ^^^ s.value v)) := rfl

/-- Each of the three is the common form with a result whose bits are the Boolean operation of the operands' bits. -/
theorem exec_logic_eq_alu {f : RegIx → Src → Instr} {op : Bool → Bool → Bool} (h : (f, op) ∈ [
      (Instr.and, fun a b => a && b), (Instr.or, fun a b => a || b), (Instr.xor, fun a b => a != b)])
    (rd : RegIx) (v : Src) (s : State) :
    ∃ w, exec (f rd v) s = s.alu (f rd v) rd (.ok w) ∧
      ∀ k, w.getLsbD k = op ((s.reg rd).getLsbD k) ((s.value v).getLsbD k) := by
  simp only [List.mem_cons, Prod.mk.injEq, List.not_mem_nil, or_false] at h
  obtain ⟨rfl, rfl⟩ | ⟨rfl, rfl⟩ | ⟨rfl, rfl⟩ := h
  · exact ⟨_, exec_and rd v s, fun _ => BitVec.getLsbD_and⟩
  · exact ⟨_, exec_or rd v s, fun _ => BitVec.getLsbD_or⟩
  · exact ⟨_, exec_xor rd v s, fun _ => by rw [BitVec.getLsbD_xor, Bool.bne_eq_xor]⟩

/-- Settles O46: each is the common form with a result that is right in every bit, and that form completes (R130). -/
theorem logicWorksBitByBit : Obligations.LogicWorksBitByBit := by
  refine ⟨encodedFOV_of_decodeOperands (by decide) (by decide) (fun _ => rfl) (fun _ _ => rfl),
    encodedFOV_of_decodeOperands (by decide) (by decide) (fun _ => rfl) (fun _ _ => rfl),
    encodedFOV_of_decodeOperands (by decide) (by decide) (fun _ => rfl) (fun _ _ => rfl), fun f op h rd v s => ?_⟩
  obtain ⟨w, hexec, hbits⟩ := exec_logic_eq_alu h rd v s
  obtain ⟨t, hnext, hreg, hpc, hframe⟩ := s.exists_alu_ok_eq_next (f rd v) rd w
  exact ⟨t, hexec.trans hnext, fun k _ => by rw [hreg, hbits], hpc, hframe⟩

end Sys2Proof.Machine
end

section
/-! The unrecognized opcode 0 (spec/30_encoding.md R65, R68; spec/45_system_host.md R151): what the decoder makes of its
bytes, and the frame of an instruction that only halts. -/

namespace Sys2Proof

/-- An opcode number that no instruction has is decoded from its byte alone. -/
theorem decode_of_opAt_eq_none {c : Config} {b : Byte} (h : c.opAt (opcodeField b) = none) (rest : List Byte) :
    decode c (b :: rest) = .ok (unrecognized b, rest) := by
  rw [decode, h]

/-- OPCODE_OF gives no instruction the number 0 (R67, R68), and the mode bits beside it are ignored (R65). -/
theorem decode_of_opcodeField_eq_zero {b : Byte} (h : opcodeField b = 0) (c : Config) (rest : List Byte) :
    decode c (b :: rest) = .ok (.unrecZero, rest) := by
  rw [decode_of_opAt_eq_none (Config.opAt_eq_none (.inl h)), unrecognized, if_pos h]

end Sys2Proof

namespace Sys2Proof.Machine

/-- Advancing the pc and halting leaves everything else as it was. -/
theorem onlyRun_afterDecode_halt (s : State) (i : Instr) : OnlyRun s (s.afterDecode i).halt :=
  ⟨⟨fun _ _ => rfl, fun _ => rfl⟩, fun _ => rfl, rfl, rfl, rfl, rfl, rfl⟩

theorem exec_unrecZero (s : State) : exec .unrecZero s = .next (s.afterDecode .unrecZero).halt := rfl

/-- Settles O50: the four bytes have opcode field 0, which no OPCODE_OF assigns, and the instruction only halts. -/
theorem opcodeZeroHalts : Obligations.OpcodeZeroHalts := by
  refine ⟨fun c rest => ⟨?_, ?_, ?_, ?_⟩, rfl, fun s => ?_⟩
  · exact decode_of_opcodeField_eq_zero (by decide) c rest
  · exact decode_of_opcodeField_eq_zero (by decide) c rest
  · exact decode_of_opcodeField_eq_zero (by decide) c rest
  · exact decode_of_opcodeField_eq_zero (by decide) c rest
  · exact ⟨_, exec_unrecZero s, rfl, rfl, rfl, onlyRun_afterDecode_halt s _⟩

end Sys2Proof.Machine
end

section
/-! The loader (spec/70_reset_and_hazards.md R192): what unpacking makes of each group, where its bytes stand after the start,
and that it undoes packing. -/

namespace Sys2Proof.Machine

/-- R192's rule for one group: the two bytes, as numbers, that its characters stand for. -/
def IsGroupBytes (c1 c2 c3 : Nat) (b1 b2 : Byte) : Prop :=
  b1.toNat = ((c1 - 40) <<< 2 ||| (c2 - 40) >>> 3) ∧ b2.toNat = (((c2 - 40) &&& 0x07) <<< 5 ||| (c3 - 40))

/-- Every character of the image is in R193's range for its place in its group. -/
def CharsInRange (image : List Nat) : Prop :=
  ∀ k x, image[k]? = some x → 40 ≤ x ∧ x ≤ if k % 3 = 0 then 103 else 71

theorem CharsInRange.head {c1 c2 c3 : Nat} {rest : List Nat} (h : CharsInRange (c1 :: c2 :: c3 :: rest)) :
    40 ≤ c1 ∧ c1 ≤ 103 ∧ 40 ≤ c2 ∧ c2 ≤ 71 ∧ 40 ≤ c3 ∧ c3 ≤ 71 := by
  obtain ⟨low1, high1⟩ := h 0 c1 rfl
  obtain ⟨low2, high2⟩ := h 1 c2 rfl
  obtain ⟨low3, high3⟩ := h 2 c3 rfl
  exact ⟨low1, high1, low2, high2, low3, high3⟩

theorem CharsInRange.tail {c1 c2 c3 : Nat} {rest : List Nat} (h : CharsInRange (c1 :: c2 :: c3 :: rest)) :
    CharsInRange rest := by
  intro k x hx
  simpa [Nat.add_mod_right] using h (k + 3) x hx

/-- A group whose characters are in range is accepted, and its bytes are R192's. -/
theorem exists_unpackGroup_eq_some {c1 c2 c3 : Nat}
    (h : 40 ≤ c1 ∧ c1 ≤ 103 ∧ 40 ≤ c2 ∧ c2 ≤ 71 ∧ 40 ≤ c3 ∧ c3 ≤ 71) :
    ∃ b1 b2, unpackGroup c1 c2 c3 = some (b1, b2) ∧ IsGroupBytes c1 c2 c3 b1 b2 := by
  refine ⟨_, _, if_pos h, ?_, ?_⟩
  · have high : (c2 - 40) >>> 3 < 2 ^ 2 := by rw [Nat.shiftRight_eq_div_pow]; omega
    rw [BitVec.toNat_append, BitVec.extractLsb'_toNat, BitVec.toNat_ofNat, BitVec.toNat_ofNat,
      Nat.mod_eq_of_lt (by omega : c1 - 40 < 2 ^ 6), Nat.mod_eq_of_lt (by omega : c2 - 40 < 2 ^ 5), Nat.mod_eq_of_lt high]
  · have low : (c2 - 40) &&& 0x07 = (c2 - 40) % 2 ^ 3 := Nat.and_two_pow_sub_one_eq_mod (c2 - 40) 3
    rw [BitVec.toNat_append, BitVec.extractLsb'_toNat, BitVec.toNat_ofNat, BitVec.toNat_ofNat, Nat.shiftRight_zero,
      Nat.mod_eq_of_lt (by omega : c2 - 40 < 2 ^ 5), Nat.mod_eq_of_lt (by omega : c3 - 40 < 2 ^ 5), low]

theorem unpack_cons {c1 c2 c3 : Nat} {rest : List Nat} {b1 b2 : Byte} {bytes : List Byte}
    (hgroup : unpackGroup c1 c2 c3 = some (b1, b2)) (hrest : unpack rest = some bytes) :
    unpack (c1 :: c2 :: c3 :: rest) = some (b1 :: b2 :: bytes) := by
  rw [unpack, hgroup, hrest]

/-- An image of whole groups in range unpacks to two bytes a group, the bytes of group `k` at `2k` and `2k + 1`. -/
theorem exists_unpack_eq_some (image : List Nat) (hlen : image.length % 3 = 0) (h : CharsInRange image) :
    ∃ bytes, unpack image = some bytes ∧ bytes.length = 2 * image.length / 3 ∧ ∀ k, k < image.length / 3 →
      IsGroupBytes (image.getD (3 * k) 0) (image.getD (3 * k + 1) 0) (image.getD (3 * k + 2) 0)
        (bytes.getD (2 * k) 0) (bytes.getD (2 * k + 1) 0) := by
  match image, hlen, h with
  | [], _, _ => exact ⟨[], rfl, rfl, fun k hk => absurd hk (Nat.not_lt_zero k)⟩
  | [_], hlen, _ => exact absurd hlen (by simp)
  | [_, _], hlen, _ => exact absurd hlen (by simp)
  | c1 :: c2 :: c3 :: rest, hlen, h =>
    simp only [List.length_cons] at hlen ⊢
    obtain ⟨b1, b2, hgroup, hbytes⟩ := exists_unpackGroup_eq_some h.head
    obtain ⟨bytes, hunpack, hlength, hrest⟩ := exists_unpack_eq_some rest (by omega) h.tail
    refine ⟨_, unpack_cons hgroup hunpack, by simp only [List.length_cons]; omega, fun k hk => ?_⟩
    cases k with
    | zero => exact hbytes
    | succ k => exact hrest k (by omega)

/-- An image that unpacks and fits in memory starts the machine with its bytes from address 0 on (R191). -/
theorem exists_boot_eq_some {c : Config} {image : List Nat} {bytes : List Byte} (h : unpack image = some bytes)
    (hfit : bytes.length ≤ c.memSize) :
    ∃ s, State.boot c image = some s ∧ ∀ a, s.mem.read a = bytes.getD a 0 := by
  have hload : loadImage c image = some bytes := by rw [loadImage, h]; exact if_pos hfit
  refine ⟨_, by rw [State.boot, hload]; rfl, fun a => ?_⟩
  rw [Memory.read_writeBytes rfl, if_pos (Nat.zero_le a), Nat.sub_zero, Memory.read_nil, List.getD_eq_getElem?_getD]

/-- Masking with `n` ones keeps the low `n` bits. -/
theorem toNat_and_of_ones {mask : Byte} {n : Nat} (h : mask.toNat = 2 ^ n - 1) (b : Byte) :
    (b &&& mask).toNat = b.toNat % 2 ^ n := by
  rw [BitVec.toNat_and, h, Nat.and_two_pow_sub_one_eq_mod]

/-- The digit that two bytes share: no bit is lost when it is computed in eight bits. -/
theorem toNat_middleDigit (b1 b2 : Byte) :
    (b1.extractLsb' 0 2 ++ b2.extractLsb' 5 3).toNat = ((b1 &&& 0x03) <<< 3 ||| b2 >>> 5).toNat := by
  have low : b2.toNat >>> 5 < 2 ^ 3 := by rw [Nat.shiftRight_eq_div_pow]; omega
  have high : (b1.toNat % 2 ^ 2) <<< 3 < 2 ^ 8 := by rw [Nat.shiftLeft_eq]; omega
  rw [BitVec.toNat_append, BitVec.extractLsb'_toNat, BitVec.extractLsb'_toNat, Nat.shiftRight_zero, Nat.mod_eq_of_lt low,
    BitVec.toNat_or, BitVec.toNat_shiftLeft, toNat_and_of_ones (n := 2) rfl, Nat.mod_eq_of_lt high, BitVec.toNat_ushiftRight]

/-- Packing by R192's shifts and masks. -/
theorem packGroup_eq (b1 b2 : Byte) : packGroup b1 b2 =
    [(b1 >>> 2).toNat + 40, ((b1 &&& 0x03) <<< 3 ||| b2 >>> 5).toNat + 40, (b2 &&& 0x1F).toNat + 40] := by
  have first : b1.toNat >>> 2 < 2 ^ 6 := by rw [Nat.shiftRight_eq_div_pow]; omega
  rw [packGroup, toNat_middleDigit, BitVec.extractLsb'_toNat, Nat.mod_eq_of_lt first, BitVec.toNat_ushiftRight,
    BitVec.extractLsb'_toNat, Nat.shiftRight_zero, toNat_and_of_ones (n := 5) rfl]

/-- Cutting a group's 16 bits at R192's places and joining them again gives the bytes back. -/
theorem unpackGroup_pack (b1 b2 : Byte) :
    unpackGroup ((b1.extractLsb' 2 6).toNat + 40) ((b1.extractLsb' 0 2 ++ b2.extractLsb' 5 3).toNat + 40)
      ((b2.extractLsb' 0 5).toNat + 40) = some (b1, b2) := by
  have lt1 := (b1.extractLsb' 2 6).isLt
  have lt2 := (b1.extractLsb' 0 2 ++ b2.extractLsb' 5 3).isLt
  have lt3 := (b2.extractLsb' 0 5).isLt
  rw [unpackGroup, if_pos (by omega)]
  simp only [Nat.add_sub_cancel, BitVec.ofNat_toNat, BitVec.setWidth_eq]
  have join1 : b1.extractLsb' 2 6 ++ b1.extractLsb' 0 2 = b1 := BitVec.extractLsb'_append_extractLsb' (w := 6) (len := 2)
  have join2 : b2.extractLsb' 5 3 ++ b2.extractLsb' 0 5 = b2 := BitVec.extractLsb'_append_extractLsb' (w := 3) (len := 5)
  rw [BitVec.extractLsb'_append_eq_left, BitVec.extractLsb'_append_eq_right, join1, join2]

theorem unpack_pack (bytes : List Byte) (h : bytes.length % 2 = 0) : unpack (pack bytes) = some bytes := by
  match bytes, h with
  | [], _ => rfl
  | [_], h => exact absurd h (by simp)
  | b1 :: b2 :: rest, h =>
    have hrest : unpack (pack rest) = some rest := unpack_pack rest (by simp only [List.length_cons] at h; omega)
    exact unpack_cons (unpackGroup_pack b1 b2) hrest

/-- Settles O3: an image in range unpacks by R192's rule, by induction on its groups, and the start writes the bytes in
order; packing cuts the 16 bits of a group where unpacking joins them. -/
theorem loaderUnpacksEachGroup : Obligations.LoaderUnpacksEachGroup := by
  refine ⟨fun c image hlen hfit h => ?_, packGroup_eq, unpack_pack⟩
  obtain ⟨bytes, hunpack, hlength, hgroups⟩ := exists_unpack_eq_some image hlen h
  obtain ⟨s, hboot, hread⟩ := exists_boot_eq_some (c := c) hunpack (hlength.trans_le hfit)
  refine ⟨s, hboot, fun k hk => ?_⟩
  rw [hread, hread]
  exact hgroups k hk

end Sys2Proof.Machine
end

section
/-! The arms of `exec` as equations (spec/70_reset_and_hazards.md R196): each instruction by the shared operations it is made of.
An instruction that can fault settles the result of its checked access, of its pop or of its push. -/

namespace Sys2Proof.Machine

variable (s : State)

theorem State.alu_eq_settle (i : Instr) (rd : RegIx) (r : Except FaultRecord Word) :
    s.alu i rd r = s.settle ((fun w => (s.afterDecode i).setReg rd w) <$> r) := by
  cases r <;> rfl

/-! ### Move, load and store -/

theorem exec_ldb (rd : RegIx) (base off : Src) : exec (.ldb rd base off) s =
    s.settle ((fun b => (s.afterDecode (.ldb rd base off)).setReg rd (zext8 b)) <$>
      s.loadByte (s.effectiveAddress base off)) := by
  rw [exec, execLdb]; cases s.loadByte (s.effectiveAddress base off) <;> rfl

theorem exec_ldw (rd : RegIx) (base off : Src) : exec (.ldw rd base off) s =
    s.settle ((fun w => (s.afterDecode (.ldw rd base off)).setReg rd w) <$>
      s.loadWord (s.effectiveAddress base off)) := by
  rw [exec, execLdw]; cases s.loadWord (s.effectiveAddress base off) <;> rfl

theorem exec_stb (v base off : Src) : exec (.stb v base off) s = s.settle
    ((s.afterDecode (.stb v base off)).storeByte (s.effectiveAddress base off) (wordByte (s.value v) 0)) := rfl

theorem exec_stw (v base off : Src) : exec (.stw v base off) s = s.settle
    ((s.afterDecode (.stw v base off)).storeWord (s.effectiveAddress base off) (s.value v)) := rfl

/-! ### Control transfer and compare -/

theorem exec_jmp (addr : Src) :
    exec (.jmp addr) s = .next ((s.afterDecode (.jmp addr)).setPc (s.value addr)) := rfl

theorem exec_jsr (addr : Src) : exec (.jsr addr) s = s.settle ((fun t => t.setPc (s.value addr)) <$>
    (s.afterDecode (.jsr addr)).pushWord (s.afterDecode (.jsr addr)).pc) := by
  rw [exec, execJsr]; cases (s.afterDecode (.jsr addr)).pushWord (s.afterDecode (.jsr addr)).pc <;> rfl

theorem exec_rts :
    exec .rts s = s.settle ((fun ra => (s.afterDecode .rts).dropWord.setPc ra) <$> s.topWord) := by
  rw [exec, execRts]; cases s.topWord <;> rfl

theorem exec_beq (addr : Src) : exec (.beq addr) s = .next (s.branch (.beq addr) addr s.flags.isEq) := rfl
theorem exec_bne (addr : Src) : exec (.bne addr) s = .next (s.branch (.bne addr) addr s.flags.isNe) := rfl
theorem exec_blt (addr : Src) : exec (.blt addr) s = .next (s.branch (.blt addr) addr s.flags.isLt) := rfl
theorem exec_ble (addr : Src) : exec (.ble addr) s = .next (s.branch (.ble addr) addr s.flags.isLe) := rfl
theorem exec_bgt (addr : Src) : exec (.bgt addr) s = .next (s.branch (.bgt addr) addr s.flags.isGt) := rfl
theorem exec_bge (addr : Src) : exec (.bge addr) s = .next (s.branch (.bge addr) addr s.flags.isGe) := rfl

theorem exec_cmp (a b : Src) : exec (.cmp a b) s =
    .next ((s.afterDecode (.cmp a b)).setFlags (compareFlags (s.value a) (s.value b))) := rfl

/-! ### Stack -/

theorem exec_push (v : Src) : exec (.push v) s = s.settle ((s.afterDecode (.push v)).pushWord (s.value v)) := rfl

theorem exec_pop (rd : RegIx) : exec (.pop rd) s =
    s.settle ((fun w => ((s.afterDecode (.pop rd)).setReg rd w).dropWord) <$> s.topWord) := by
  rw [exec, execPop]; cases s.topWord <;> rfl

/-! ### Arithmetic -/

theorem exec_add (rd : RegIx) (v : Src) :
    exec (.add rd v) s = s.alu (.add rd v) rd (.ok (s.reg rd + s.value v)) := rfl
theorem exec_sub (rd : RegIx) (v : Src) :
    exec (.sub rd v) s = s.alu (.sub rd v) rd (.ok (s.reg rd - s.value v)) := rfl
theorem exec_mul (rd : RegIx) (v : Src) :
    exec (.mul rd v) s = s.alu (.mul rd v) rd (.ok (s.reg rd * s.value v)) := rfl
theorem exec_div (rd : RegIx) (v : Src) :
    exec (.div rd v) s = s.alu (.div rd v) rd (quotient s.cfg (s.reg rd) (s.value v)) := rfl
theorem exec_mod (rd : RegIx) (v : Src) :
    exec (.mod rd v) s = s.alu (.mod rd v) rd (remainder s.cfg (s.reg rd) (s.value v)) := rfl
theorem exec_shl (rd : RegIx) (v : Src) :
    exec (.shl rd v) s = s.alu (.shl rd v) rd (shiftLeft s.cfg (s.reg rd) (s.value v)) := rfl
theorem exec_shr (rd : RegIx) (v : Src) :
    exec (.shr rd v) s = s.alu (.shr rd v) rd (shiftRight s.cfg (s.reg rd) (s.value v)) := rfl

/-! ### Halts and host instructions -/

theorem exec_exit (code : Src) : exec (.exit code) s =
    .next ((s.afterDecode (.exit code)).setExitCode (s.value code)).halt := rfl

theorem exec_unrecHigh (low : BitVec 5) :
    exec (.unrecHigh low) s = .next (s.afterDecode (.unrecHigh low)).halt := rfl

/-- Each host instruction is a host call with the event that Safety.lean names for it. -/
theorem exec_of_hostEvent {i : Instr} {a : Src} {event : List Byte → HostEvent} (h : hostEvent i = some (a, event)) :
    exec i s = s.hostCall i a event := by
  cases i <;> simp only [hostEvent, Option.some.injEq, Prod.mk.injEq, reduceCtorEq] at h <;>
    obtain ⟨rfl, rfl⟩ := h <;> rfl

end Sys2Proof.Machine
end

section
/-! What executing an instruction can do, said once for all 33 constructors: it completes, and every field of the state but the
pc and the registers it writes is then known; or it faults and changes nothing but `run` (spec/60_exceptions.md R172); or the host
leaves it stuck (spec/45_system_host.md R157). -/

namespace Sys2Proof.Machine

/-! ### The fields after an instruction that completes -/

/-- The first `n` bytes of a word, least significant first (R42). -/
def wordBytes (w : Word) (n : Nat) : List Byte := (List.range n).map (wordByte w)

/-- The memory after the instruction: the bytes that a storing instruction stores are written at its address. -/
def memAfter (i : Instr) (s : State) : Memory :=
  match stores s i, storedWord s i with
  | some (a, n), some w => s.mem.writeBytes a.toNat (wordBytes w n)
  | _, _ => s.mem

/-- FLAGS after the instruction: CMP alone writes it (R24). -/
def flagsAfter (i : Instr) (s : State) : Flags :=
  match i with
  | .cmp a b => compareFlags (s.value a) (s.value b)
  | _ => s.flags

/-- The exit code after the instruction: EXIT alone writes it (R28). -/
def exitCodeAfter (i : Instr) (s : State) : Word :=
  match i with
  | .exit code => s.value code
  | _ => s.exitCode

theorem memAfter_of_stores_eq_none {i : Instr} {s : State} (h : stores s i = none) : memAfter i s = s.mem := by
  rw [memAfter, h]

theorem memAfter_of_stores_eq_some {i : Instr} {s : State} {a w : Word} {n : Nat} (h : stores s i = some (a, n))
    (hw : storedWord s i = some w) : memAfter i s = s.mem.writeBytes a.toNat (wordBytes w n) := by
  rw [memAfter, h, hw]

theorem flagsAfter_of_not_isCmp {i : Instr} (h : isCmp i = false) (s : State) : flagsAfter i s = s.flags := by
  cases i with
  | cmp a b => cases h
  | _ => rfl

theorem exitCodeAfter_of_not_isExit {i : Instr} (h : isExit i = false) (s : State) :
    exitCodeAfter i s = s.exitCode := by
  cases i with
  | exit code => cases h
  | _ => rfl

/-- The instruction ran to its end from `s` and made `t`: every field of `t` but the pc and the registers it writes. -/
structure Completed (i : Instr) (s t : State) : Prop where
  cfg : t.cfg = s.cfg
  hostSilentAt : t.hostSilentAt = s.hostSilentAt
  reg : ∀ r, r ∉ writesRegs i → t.reg r = s.reg r
  spWritten : t.spWritten = (s.spWritten || decide (spIndex ∈ writesRegs i))
  legal : ∀ a n, stores s i = some (a, n) → s.legal a n = true
  mem : t.mem = memAfter i s
  flags : t.flags = flagsAfter i s
  run : t.run = if halts i then .halted else s.run
  exitCode : t.exitCode = exitCodeAfter i s
  hostLog : (callsHost i = false ∧ t.hostLog = s.hostLog) ∨ (callsHost i = true ∧ ∃ e, t.hostLog = s.hostLog ++ [e])

/-- All that executing an instruction can answer. No instruction is refused. -/
inductive ExecSpec (i : Instr) (s : State) : Result → Prop where
  | completes {t : State} (h : Completed i s t) : ExecSpec i s (.next t)
  | faults (r : FaultRecord) (h : halts i = false) : ExecSpec i s (.next (s.raise r))
  | stuck {a : Src} {event : List Byte → HostEvent} {bytes : List Byte} (hevent : hostEvent i = some (a, event))
      (hstring : s.extractString (s.value a) = .ok bytes) (hsilent : s.hostSilentAt = some s.hostLog.length) :
      ExecSpec i s (.fault (.hostSilent (event bytes)))

/-! ### Completing, by what is written -/

/-- An instruction that can change the registers, the pc and the memory, and no other field. -/
def writesRegsAndMem : Instr → Bool
  | .cmp _ _ | .exit _ | .unrecZero | .unrecHigh _ | .println _ | .print _ | .run _ => false
  | _ => true

theorem kinds_of_writesRegsAndMem {i : Instr} (h : writesRegsAndMem i = true) :
    isCmp i = false ∧ halts i = false ∧ isExit i = false ∧ callsHost i = false := by
  cases i with
  | cmp | exit | unrecZero | unrecHigh | println | print | run => cases h
  | _ => exact ⟨rfl, rfl, rfl, rfl⟩

/-- Such an instruction completes in a state that differs in the pc, the registers it writes and the bytes it stores. -/
theorem Completed.of_writesRegsAndMem {i : Instr} {s t : State} (hi : writesRegsAndMem i = true)
    (hreg : ∀ r, r ∉ writesRegs i → t.reg r = s.reg r)
    (hsp : t.spWritten = (s.spWritten || decide (spIndex ∈ writesRegs i)))
    (hlegal : ∀ a n, stores s i = some (a, n) → s.legal a n = true) (hmem : t.mem = memAfter i s)
    (hrest : t = { s with pc := t.pc, regs := t.regs, spWritten := t.spWritten, mem := t.mem }) : Completed i s t := by
  obtain ⟨hcmp, hhalts, hexit, hhost⟩ := kinds_of_writesRegsAndMem hi
  exact {
    cfg := (congrArg State.cfg hrest :)
    hostSilentAt := (congrArg State.hostSilentAt hrest :)
    reg := hreg
    spWritten := hsp
    legal := hlegal
    mem := hmem
    flags := (congrArg State.flags hrest).trans (flagsAfter_of_not_isCmp hcmp s).symm
    run := (congrArg State.run hrest).trans (by simp [hhalts])
    exitCode := (congrArg State.exitCode hrest).trans (exitCodeAfter_of_not_isExit hexit s).symm
    hostLog := .inl ⟨hhost, (congrArg State.hostLog hrest :)⟩ }

theorem Completed.setReg {i : Instr} {s : State} {rd : RegIx} (hi : writesRegsAndMem i = true)
    (hstores : stores s i = none) (hregs : writesRegs i = [rd]) (w : Word) :
    Completed i s ((s.afterDecode i).setReg rd w) := by
  refine .of_writesRegsAndMem hi (fun r hr => ?_) ?_ (by simp [hstores]) (memAfter_of_stores_eq_none hstores).symm rfl
  · have hne : rd ≠ r := by rintro rfl; simp [hregs] at hr
    simp [hne]
  · simp [hregs, eq_comm]

theorem Completed.setPc {i : Instr} {s : State} (hi : writesRegsAndMem i = true) (hstores : stores s i = none)
    (hregs : writesRegs i = []) (pc : Word) : Completed i s (s.setPc pc) :=
  .of_writesRegsAndMem hi (fun _ _ => rfl) (by simp [hregs]) (by simp [hstores])
    (memAfter_of_stores_eq_none hstores).symm rfl

theorem Completed.rts (s : State) (ra : Word) : Completed .rts s ((s.afterDecode .rts).dropWord.setPc ra) := by
  refine .of_writesRegsAndMem rfl (fun r hr => ?_) ?_ nofun rfl rfl
  · have hne : spIndex ≠ r := by rintro rfl; simp [writesRegs] at hr
    simp [hne]
  · simp [writesRegs]

theorem Completed.pop (s : State) (rd : RegIx) (w : Word) :
    Completed (.pop rd) s ((s.afterDecode (.pop rd)).setReg rd w).dropWord := by
  refine .of_writesRegsAndMem rfl (fun r hr => ?_) ?_ nofun rfl rfl
  · simp only [writesRegs, List.mem_cons, List.not_mem_nil, or_false, not_or] at hr
    simp [Ne.symm hr.1, Ne.symm hr.2]
  · simp [writesRegs]

theorem Completed.stb {s : State} {v base off : Src} (hl : s.legal (s.effectiveAddress base off) 1 = true) :
    Completed (.stb v base off) s ((s.afterDecode (.stb v base off)).setMem
      (s.mem.write (s.effectiveAddress base off).toNat (wordByte (s.value v) 0))) :=
  .of_writesRegsAndMem rfl (fun _ _ => rfl) (by simp [writesRegs]) (fun _ _ h => by cases h; exact hl) rfl rfl

theorem Completed.stw {s : State} {v base off : Src} (hl : s.legal (s.effectiveAddress base off) 4 = true) :
    Completed (.stw v base off) s ((s.afterDecode (.stw v base off)).setMem
      (s.mem.writeWord (s.effectiveAddress base off).toNat (s.value v))) :=
  .of_writesRegsAndMem rfl (fun _ _ => rfl) (by simp [writesRegs]) (fun _ _ h => by cases h; exact hl) rfl rfl

/-- PUSH and JSR: a word below R255, wherever the pc goes. -/
theorem Completed.push {i : Instr} {s : State} {w : Word} (hi : writesRegsAndMem i = true)
    (hregs : writesRegs i = [spIndex]) (hstores : stores s i = some (s.pushAddress, 4))
    (hw : storedWord s i = some w) (hl : s.legal s.pushAddress 4 = true) (pc : Word) :
    Completed i s (((s.setPc pc).setMem (s.mem.writeWord s.pushAddress.toNat w)).setReg spIndex s.pushAddress) := by
  refine .of_writesRegsAndMem hi (fun r hr => ?_) (by simp [hregs]) (fun a n h => ?_)
    (memAfter_of_stores_eq_some hstores hw).symm rfl
  · have hne : spIndex ≠ r := by rintro rfl; simp [hregs] at hr
    simp [hne]
  · cases hstores.symm.trans h; exact hl

theorem Completed.cmp (s : State) (a b : Src) : Completed (.cmp a b) s
    ((s.afterDecode (.cmp a b)).setFlags (compareFlags (s.value a) (s.value b))) where
  cfg := rfl
  hostSilentAt := rfl
  reg _ _ := rfl
  spWritten := by simp [writesRegs]
  legal := nofun
  mem := rfl
  flags := rfl
  run := rfl
  exitCode := rfl
  hostLog := .inl ⟨rfl, rfl⟩

/-- EXIT and the unrecognized opcodes: one halt, with the exit code the instruction asks for. -/
theorem Completed.halt {i : Instr} {s : State} (hi : halts i = true) :
    Completed i s ((s.afterDecode i).setExitCode (exitCodeAfter i s)).halt := by
  cases i with
  | exit | unrecZero | unrecHigh =>
    exact ⟨rfl, rfl, fun _ _ => rfl, by simp [writesRegs], nofun, rfl, rfl, rfl, rfl, .inl ⟨rfl, rfl⟩⟩
  | _ => cases hi

theorem callsHost_of_hostEvent {i : Instr} {a : Src} {event : List Byte → HostEvent}
    (h : hostEvent i = some (a, event)) : callsHost i = true ∧ halts i = false := by
  cases i with
  | println | print | run => exact ⟨rfl, rfl⟩
  | _ => cases h

theorem Completed.emit {i : Instr} {s : State} (hi : callsHost i = true) (e : HostEvent) :
    Completed i s ((s.afterDecode i).setHostLog (s.hostLog ++ [e])) := by
  cases i with
  | println | print | run =>
    exact ⟨rfl, rfl, fun _ _ => rfl, by simp [writesRegs], nofun, rfl, rfl, rfl, rfl, .inr ⟨rfl, e, rfl⟩⟩
  | _ => cases hi

/-! ### Every instruction -/

/-- An instruction that settles: each result it can have completes it, each fault record faults. -/
theorem ExecSpec.settle {i : Instr} {s : State} {x : Except FaultRecord State} (hi : halts i = false)
    (h : ∀ t, x = .ok t → Completed i s t) : ExecSpec i s (s.settle x) := by
  cases x with
  | ok t => exact .completes (h t rfl)
  | error r => exact .faults r hi

theorem ExecSpec.settle_map {α : Type} {i : Instr} {s : State} {f : α → State} {x : Except FaultRecord α}
    (hi : halts i = false) (h : ∀ a, x = .ok a → Completed i s (f a)) : ExecSpec i s (s.settle (f <$> x)) := by
  cases x with
  | ok a => exact .completes (h a rfl)
  | error r => exact .faults r hi

theorem ExecSpec.alu {i : Instr} {s : State} {rd : RegIx} {r : Except FaultRecord Word} (h : exec i s = s.alu i rd r)
    (hi : writesRegsAndMem i = true) (hstores : stores s i = none) (hregs : writesRegs i = [rd]) :
    ExecSpec i s (exec i s) := by
  rw [h, State.alu_eq_settle]
  exact .settle_map (kinds_of_writesRegsAndMem hi).2.1 fun w _ => .setReg hi hstores hregs w

theorem ExecSpec.branch {i : Instr} {s : State} (hi : writesRegsAndMem i = true) (hstores : stores s i = none)
    (hregs : writesRegs i = []) (addr : Src) (taken : Bool) : ExecSpec i s (.next (s.branch i addr taken)) := by
  rw [State.branch_eq]
  exact .completes (.setPc hi hstores hregs _)

theorem ExecSpec.hostCall {i : Instr} {s : State} {a : Src} {event : List Byte → HostEvent}
    (h : hostEvent i = some (a, event)) : ExecSpec i s (s.hostCall i a event) := by
  obtain ⟨hhost, hhalts⟩ := callsHost_of_hostEvent h
  cases hstring : s.extractString (s.value a) with
  | error r => rw [State.hostCall, hstring]; exact .faults r hhalts
  | ok bytes =>
    have hcall : s.hostCall i a event = (s.afterDecode i).emit (event bytes) := by rw [State.hostCall, hstring]
    rw [hcall]
    by_cases hsilent : s.hostSilentAt = some s.hostLog.length
    · rw [State.emit_eq_fault (s := s.afterDecode i) _ hsilent]; exact .stuck h hstring hsilent
    · rw [State.emit_eq_next (s := s.afterDecode i) _ hsilent]; exact .completes (.emit hhost _)

/-- What each instruction does, told by what it is made of. -/
theorem execSpec (i : Instr) (s : State) : ExecSpec i s (exec i s) := by
  cases i with
  | mov rd v => exact .completes (.setReg rfl rfl rfl _)
  | add rd v => exact .alu (exec_add s rd v) rfl rfl rfl
  | sub rd v => exact .alu (exec_sub s rd v) rfl rfl rfl
  | mul rd v => exact .alu (exec_mul s rd v) rfl rfl rfl
  | div rd v => exact .alu (exec_div s rd v) rfl rfl rfl
  | mod rd v => exact .alu (exec_mod s rd v) rfl rfl rfl
  | and rd v => exact .alu (exec_and rd v s) rfl rfl rfl
  | or rd v => exact .alu (exec_or rd v s) rfl rfl rfl
  | xor rd v => exact .alu (exec_xor rd v s) rfl rfl rfl
  | shl rd v => exact .alu (exec_shl s rd v) rfl rfl rfl
  | shr rd v => exact .alu (exec_shr s rd v) rfl rfl rfl
  | ldb rd base off => rw [exec_ldb]; exact .settle_map rfl fun _ _ => .setReg rfl rfl rfl _
  | ldw rd base off => rw [exec_ldw]; exact .settle_map rfl fun _ _ => .setReg rfl rfl rfl _
  | stb v base off =>
    refine .settle rfl fun t ht => ?_
    obtain ⟨hl, rfl⟩ := State.storeByte_ok_iff.mp ht
    exact .stb hl
  | stw v base off =>
    refine .settle rfl fun t ht => ?_
    obtain ⟨hl, rfl⟩ := State.storeWord_ok_iff.mp ht
    exact .stw hl
  | push v =>
    refine .settle rfl fun t ht => ?_
    obtain ⟨hl, rfl⟩ := State.pushWord_ok_iff.mp ht
    exact .push (s := s) rfl rfl rfl rfl hl _
  | jsr addr =>
    rw [exec_jsr]
    refine .settle_map rfl fun t ht => ?_
    obtain ⟨hl, rfl⟩ := State.pushWord_ok_iff.mp ht
    exact .push (s := s) rfl rfl rfl rfl hl (s.value addr)
  | rts => rw [exec_rts]; exact .settle_map rfl fun ra _ => .rts s ra
  | pop rd => rw [exec_pop]; exact .settle_map rfl fun w _ => .pop s rd w
  | jmp addr => exact .completes (.setPc rfl rfl rfl _)
  | beq | bne | blt | ble | bgt | bge => exact .branch rfl rfl rfl _ _
  | cmp a b => exact .completes (.cmp s a b)
  | exit | unrecZero | unrecHigh => exact .completes (.halt rfl)
  | println | print | run => exact .hostCall rfl

end Sys2Proof.Machine
end

section
/-! The frames of an instruction and of a step, from what executing an instruction can do, and the statements about every
instruction: the invariant, the run state, precise faults, and who writes which field. -/

namespace Sys2Proof.Machine

/-! ### The bytes a storing instruction stores -/

@[simp] theorem length_wordBytes (w : Word) (n : Nat) : (wordBytes w n).length = n := by simp [wordBytes]

theorem getElem?_wordBytes {w : Word} {n k : Nat} (h : k < n) : (wordBytes w n)[k]? = some (wordByte w k) := by
  simp [wordBytes, List.getElem?_range h]

theorem exists_storedWord_of_stores {i : Instr} {s : State} {a : Word} {n : Nat} (h : stores s i = some (a, n)) :
    ∃ w, storedWord s i = some w := by
  cases i with
  | stb | stw | push | jsr => exact ⟨_, rfl⟩
  | _ => cases h

theorem Memory.read_writeBytes_ne (m : Memory) {a c : Nat} (bytes : List Byte) (h : c < a ∨ a + bytes.length ≤ c) :
    (m.writeBytes a bytes).read c = m.read c := by
  induction bytes generalizing m a with
  | nil => rfl
  | cons b rest ih =>
    simp only [List.length_cons] at h
    rw [Memory.writeBytes, ih (m.write a b) (by omega), Memory.read_write_ne m b (by omega)]

theorem toNat_wordByte (w : Word) (k : Nat) : (wordByte w k).toNat = w.toNat / 2 ^ (8 * k) % 2 ^ 8 := by
  rw [wordByte, BitVec.extractLsb'_toNat, Nat.shiftRight_eq_div_pow]

/-! ### Frames -/

namespace Completed

variable {i : Instr} {s t : State}

theorem regsKept (h : Completed i s t) : RegsKept (writesRegs i) s t := by
  refine ⟨h.reg, fun hsp => ?_⟩
  rw [h.spWritten, decide_eq_false hsp, Bool.or_false]

theorem memSame (h : Completed i s t) (hstores : stores s i = none) : MemSame s t := by
  intro b
  rw [h.mem, memAfter_of_stores_eq_none hstores]

theorem memKept (h : Completed i s t) {a : Word} {n : Nat} (hstores : stores s i = some (a, n)) :
    MemKept a.toNat n s t := by
  obtain ⟨w, hw⟩ := exists_storedWord_of_stores hstores
  intro b hb
  rw [h.mem, memAfter_of_stores_eq_some hstores hw, Memory.read_writeBytes_ne _ _ (by simpa using hb)]

theorem outputsKept (h : Completed i s t) (hi : writesRegsAndMem i = true) : OutputsKept s t := by
  obtain ⟨-, hhalts, hexit, hhost⟩ := kinds_of_writesRegsAndMem hi
  refine ⟨h.cfg, ?_, ?_, ?_, h.hostSilentAt⟩
  · rw [h.run, hhalts]; rfl
  · rw [h.exitCode, exitCodeAfter_of_not_isExit hexit]
  · simpa [hhost] using h.hostLog

theorem flagsKept (h : Completed i s t) (hi : isCmp i = false) : t.flags = s.flags := by
  rw [h.flags, flagsAfter_of_not_isCmp hi]

theorem onlyRegs (h : Completed i s t) (hi : writesRegsAndMem i = true) (hstores : stores s i = none) :
    OnlyRegs (writesRegs i) s t :=
  ⟨h.regsKept, h.memSame hstores, h.flagsKept (kinds_of_writesRegsAndMem hi).1, h.outputsKept hi⟩

theorem onlyRegsAndBytes (h : Completed i s t) (hi : writesRegsAndMem i = true) {a : Word} {n : Nat}
    (hstores : stores s i = some (a, n)) : OnlyRegsAndBytes (writesRegs i) a.toNat n s t :=
  ⟨h.regsKept, h.memKept hstores, h.flagsKept (kinds_of_writesRegsAndMem hi).1, h.outputsKept hi⟩

/-- A byte that the instruction stored reads as that byte of the word it stores. -/
theorem read_stored (h : Completed i s t) (hwf : s.mem.wf = true) {a w : Word} {n k : Nat}
    (hstores : stores s i = some (a, n)) (hw : storedWord s i = some w) (hk : k < n) :
    t.mem.read (a.toNat + k) = wordByte w k := by
  rw [h.mem, memAfter_of_stores_eq_some hstores hw, Memory.read_writeBytes hwf, if_pos (Nat.le_add_right _ _),
    Nat.add_sub_cancel_left, getElem?_wordBytes hk, Option.getD_some]

/-- The word that the instruction stored is read there. -/
theorem readWord_stored (h : Completed i s t) (hwf : s.mem.wf = true) {a w : Word} (hstores : stores s i = some (a, 4))
    (hw : storedWord s i = some w) : t.mem.readWord a.toNat = w := by
  have hread : t.mem.read a.toNat = wordByte w 0 := h.read_stored hwf hstores hw (k := 0) (by decide)
  rw [Memory.readWord, h.read_stored hwf hstores hw (by decide), h.read_stored hwf hstores hw (by decide),
    h.read_stored hwf hstores hw (by decide), hread, wordByte_append]

theorem run_eq (h : Completed i s t) (hi : halts i = false) : t.run = s.run := by
  rw [h.run, hi]; rfl

/-- A completed instruction does not leave a running machine faulted. -/
theorem run_ne_faulted (h : Completed i s t) (hs : s.run = .running) (r : FaultRecord) : t.run ≠ .faulted r := by
  rw [h.run, hs]
  cases halts i <;> simp

end Completed

/-! ### The next state of an instruction and of a step -/

/-- An instruction that gives a next state completed, or faulted and changed nothing but `run` (R172). -/
theorem exec_next_cases {i : Instr} {s t : State} (h : exec i s = .next t) :
    Completed i s t ∨ ∃ r, t = s.setRun (.faulted r) := by
  have hspec := execSpec i s
  rw [h] at hspec
  cases hspec with
  | completes hc => exact .inl hc
  | faults r _ => exact .inr ⟨r, rfl⟩

/-- An instruction after which a running machine still runs completed. -/
theorem completed_of_running {i : Instr} {s t : State} (h : exec i s = .next t) (ht : t.run = .running) :
    Completed i s t := by
  obtain hc | ⟨r, rfl⟩ := exec_next_cases h
  · exact hc
  · cases ht

/-- A step that gives a next state starts running; it faulted and changed nothing but `run`, or it completed the instruction
it fetched. -/
theorem step_next_spec {s t : State} (h : step s = .next t) :
    s.run = .running ∧ ((∃ r, t = s.setRun (.faulted r)) ∨ ∃ i, s.fetchInstr = .ok i ∧ Completed i s t) := by
  obtain ⟨hrun, ⟨r, -, rfl⟩ | ⟨i, hi, hexec⟩⟩ := step_next_cases h
  · exact ⟨hrun, .inl ⟨r, rfl⟩⟩
  · exact ⟨hrun, (exec_next_cases hexec).symm.imp id fun hc => ⟨i, hi, hc⟩⟩

/-! ### The invariant -/

theorem reachable_compareFlags (a b : Word) : (compareFlags a b).reachable = true := by
  unfold compareFlags
  split
  · rfl
  · split <;> rfl

theorem reachable_flagsAfter (i : Instr) {s : State} (h : s.flags.reachable = true) :
    (flagsAfter i s).reachable = true := by
  cases i with
  | cmp a b => exact reachable_compareFlags _ _
  | _ => exact h

theorem Completed.wf_mem {i : Instr} {s t : State} (h : Completed i s t) (hwf : s.mem.wf = true) :
    t.mem.wf = true := by
  cases hstores : stores s i with
  | none => rw [h.mem, memAfter_of_stores_eq_none hstores, hwf]
  | some p =>
    obtain ⟨w, hw⟩ := exists_storedWord_of_stores hstores
    rw [h.mem, memAfter_of_stores_eq_some hstores hw]
    exact Memory.wf_writeBytes _ _ hwf

/-- The stored bytes were checked to be in memory (R44). -/
theorem Completed.below_mem {i : Instr} {s t : State} (h : Completed i s t) (hb : s.mem.below s.cfg.memSize = true) :
    t.mem.below t.cfg.memSize = true := by
  rw [h.cfg, h.mem]
  cases hstores : stores s i with
  | none => rw [memAfter_of_stores_eq_none hstores, hb]
  | some p =>
    obtain ⟨w, hw⟩ := exists_storedWord_of_stores hstores
    have hl := State.toNat_add_le_of_legal (h.legal p.1 p.2 hstores)
    rw [memAfter_of_stores_eq_some hstores hw]
    exact Memory.below_writeBytes _ hb (by simpa using hl)

theorem Completed.inv {i : Instr} {s t : State} (h : Completed i s t) (hinv : s.Inv) (hrun : s.run = .running) :
    t.Inv := by
  obtain ⟨hlegal, hwf, hbelow, hflags, hexit, hsp⟩ := hinv
  refine ⟨h.cfg ▸ hlegal, h.wf_mem hwf, h.below_mem hbelow, h.flags ▸ reachable_flagsAfter i hflags, fun hne => ?_,
    fun hunwritten => ?_⟩
  · have hnot : isExit i = false := by
      cases i with
      | exit code => exact absurd h.run hne
      | _ => rfl
    rw [h.exitCode, exitCodeAfter_of_not_isExit hnot]
    exact hexit (by simp [hrun])
  · rw [h.spWritten, Bool.or_eq_false_iff, decide_eq_false_iff_not] at hunwritten
    rw [h.reg spIndex hunwritten.2]
    exact hsp hunwritten.1

theorem State.Inv.setRun_faulted {s : State} (h : s.Inv) (hrun : s.run = .running) (r : FaultRecord) :
    (s.setRun (.faulted r)).Inv := by
  obtain ⟨hlegal, hwf, hbelow, hflags, hexit, hsp⟩ := h
  exact ⟨hlegal, hwf, hbelow, hflags, fun _ => hexit (by simp [hrun]), hsp⟩

/-- Settles O7: a step completes its instruction, which keeps each part of the invariant, or changes `run` alone. -/
theorem stepKeepsInvariant : Obligations.StepKeepsInvariant := by
  intro s t hinv hstep
  obtain ⟨hrun, ⟨r, rfl⟩ | ⟨i, -, hc⟩⟩ := step_next_spec hstep
  · exact hinv.setRun_faulted hrun r
  · exact hc.inv hinv hrun

/-! ### The run state -/

theorem step_of_not_running {s : State} (h : s.run ≠ .running) : step s = .fault .stopped := by
  unfold step
  split
  · next hr => exact absurd hr h
  · rfl
  · rfl

/-- A halting instruction neither faults nor waits for the host. -/
theorem ExecSpec.exists_completed {i : Instr} {s : State} {x : Result} (h : ExecSpec i s x) (hi : halts i = true) :
    ∃ t, x = .next t ∧ Completed i s t := by
  cases h with
  | completes hc => exact ⟨_, rfl, hc⟩
  | faults r hn => exact absurd (hi.symm.trans hn) (by simp)
  | stuck hevent _ _ => exact absurd (hi.symm.trans (callsHost_of_hostEvent hevent).2) (by simp)

/-- Settles O16: a halting instruction can only complete; any other leaves `run` or faults. -/
theorem runStateChangesAsStated : Obligations.RunStateChangesAsStated := by
  refine ⟨rfl, fun s => step_of_not_running, fun i s hi => ?_, fun s t hstep => ?_⟩
  · obtain ⟨t, hexec, hc⟩ := (execSpec i s).exists_completed hi
    exact ⟨t, hexec, by rw [hc.run, hi]; rfl⟩
  · obtain ⟨hrun, ⟨r, rfl⟩ | ⟨i, hi, hc⟩⟩ := step_next_spec hstep
    · exact ⟨hrun, .inr (.inr ⟨r, rfl⟩)⟩
    · refine ⟨hrun, ?_⟩
      cases hh : halts i with
      | true => exact .inr (.inl ⟨by rw [hc.run, hh]; rfl, i, hi, hh⟩)
      | false => exact .inl ((hc.run_eq hh).trans hrun)

theorem step_of_fetchInstr_ok {s : State} {i : Instr} (hrun : s.run = .running) (h : s.fetchInstr = .ok i) :
    step s = exec i s := by
  rw [step, hrun]
  simp only [h]

theorem step_of_fetchInstr_error {s : State} {r : FaultRecord} (hrun : s.run = .running) (h : s.fetchInstr = .error r) :
    step s = .next (s.setRun (.faulted r)) := by
  rw [step, hrun]
  simp only [h, State.raise_eq_setRun]

/-- Only the host's silence keeps an instruction from a next state. -/
theorem ExecSpec.exists_next {i : Instr} {s : State} {x : Result} (h : ExecSpec i s x)
    (hhost : s.hostSilentAt ≠ some s.hostLog.length) : ∃ t, x = .next t := by
  cases h with
  | completes _ => exact ⟨_, rfl⟩
  | faults r _ => exact ⟨_, rfl⟩
  | stuck _ _ hsilent => exact absurd hsilent hhost

/-- Settles O17: a fetch fault is a next state, and executing an instruction is stuck only where the host is silent. -/
theorem runningMachineMakesAStep : Obligations.RunningMachineMakesAStep := by
  constructor
  · intro s hrun hhost
    cases hf : s.fetchInstr with
    | error r => exact ⟨_, step_of_fetchInstr_error hrun hf⟩
    | ok i =>
      rw [step_of_fetchInstr_ok hrun hf]
      exact (execSpec i s).exists_next hhost
  · intro s r hstep
    by_cases hrun : s.run = .running
    · cases hf : s.fetchInstr with
      | error f => exact absurd ((step_of_fetchInstr_error hrun hf).symm.trans hstep) (by simp)
      | ok i =>
        have hspec := execSpec i s
        rw [← step_of_fetchInstr_ok hrun hf, hstep] at hspec
        cases hspec
    · exact absurd ((step_of_not_running hrun).symm.trans hstep) (by simp)

/-- Settles O18: a completed instruction leaves no faulted state, so the step took the fault, which changes `run` alone. -/
theorem faultsArePrecise : Obligations.FaultsArePrecise := by
  intro s t r hstep ht
  obtain ⟨hrun, ⟨f, rfl⟩ | ⟨i, -, hc⟩⟩ := step_next_spec hstep
  · rw [State.run_setRun] at ht
    rw [ht]
  · exact absurd ht (hc.run_ne_faulted hrun r)

/-! ### The fields that few instructions write -/

/-- Settles O21: only a completed host instruction adds to the log, and it adds one event. -/
theorem hostLogOnlyGrows : Obligations.HostLogOnlyGrows := by
  intro s t hstep
  obtain ⟨-, ⟨r, rfl⟩ | ⟨i, hi, hc⟩⟩ := step_next_spec hstep
  · exact .inl rfl
  · obtain ⟨-, hlog⟩ | ⟨hhost, e, hlog⟩ := hc.hostLog
    · exact .inl hlog
    · exact .inr ⟨i, e, hi, hhost, hlog⟩

/-- Settles O22: neither a fault nor a completed instruction writes these fields. -/
theorem parametersStayFixed : Obligations.ParametersStayFixed := by
  intro s t hstep
  obtain ⟨-, ⟨r, rfl⟩ | ⟨i, -, hc⟩⟩ := step_next_spec hstep
  · exact ⟨rfl, rfl⟩
  · exact ⟨hc.cfg, hc.hostSilentAt⟩

/-- Settles O23: the frame of a completed instruction, and a fault changes no register. -/
theorem registersOutsideTheOutputsAreKept : Obligations.RegistersOutsideTheOutputsAreKept := by
  intro i s t hexec
  obtain hc | ⟨r, rfl⟩ := exec_next_cases hexec
  · exact hc.regsKept
  · exact ⟨fun _ _ => rfl, fun _ => rfl⟩

/-- Settles O24: a completed instruction writes the bytes it stores and no other, and a fault writes none. -/
theorem memoryOutsideTheStoredBytesIsKept : Obligations.MemoryOutsideTheStoredBytesIsKept := by
  intro i s t hexec
  obtain hc | ⟨r, rfl⟩ := exec_next_cases hexec
  · exact ⟨hc.memSame, fun a n => hc.memKept⟩
  · exact ⟨fun _ _ => rfl, fun _ _ _ _ _ => rfl⟩

/-- Settles O58: a completed instruction sets the mark exactly where R255 is among its registers, and a fault leaves it. -/
theorem r255IsSetByAWriteOnly : Obligations.R255IsSetByAWriteOnly := by
  intro i s t hexec
  obtain hc | ⟨f, rfl⟩ := exec_next_cases hexec
  · refine ⟨hc.regsKept.2, fun r hr hs => absurd hr (hc.run_ne_faulted hs r), fun hmem _ _ => ?_⟩
    rw [hc.spWritten, decide_eq_true hmem, Bool.or_true]
  · exact ⟨fun _ => rfl, fun _ _ _ => rfl, fun _ _ ht => absurd ht (by simp)⟩

/-- Settles O54: a stuck outcome comes from a host call alone, and a host call is stuck exactly where its string is readable
and the host is silent. -/
theorem onlyASilentHostLeavesTheMachineStuck : Obligations.OnlyASilentHostLeavesTheMachineStuck := by
  intro i s r
  constructor
  · intro hexec
    have hspec := execSpec i s
    rw [hexec] at hspec
    cases hspec with
    | stuck hevent hstring hsilent => exact ⟨hsilent, _, _, _, hevent, hstring, rfl⟩
  · rintro ⟨hsilent, a, event, bytes, hevent, hstring, rfl⟩
    rw [exec_of_hostEvent s hevent]
    exact State.hostCall_eq_fault_iff.mpr ⟨bytes, hstring, hsilent, rfl⟩

end Sys2Proof.Machine
end

section
/-! What an instruction does not read (spec/10_state.md sections 4 and 6): a change of the state that it can neither see nor undo
commutes with it. -/

namespace Sys2Proof.Machine

/-- A change of the state that no instruction but CMP, EXIT and the branches can see: every field they read is kept, and
every update they make commutes with it. -/
structure Unseen (g : State → State) : Prop where
  reg : ∀ s i, (g s).reg i = s.reg i
  pc : ∀ s, (g s).pc = s.pc
  cfg : ∀ s, (g s).cfg = s.cfg
  spWritten : ∀ s, (g s).spWritten = s.spWritten
  mem : ∀ s, (g s).mem = s.mem
  hostLog : ∀ s, (g s).hostLog = s.hostLog
  hostSilentAt : ∀ s, (g s).hostSilentAt = s.hostSilentAt
  setReg : ∀ s i v, (g s).setReg i v = g (s.setReg i v)
  setPc : ∀ s v, (g s).setPc v = g (s.setPc v)
  setMem : ∀ s m, (g s).setMem m = g (s.setMem m)
  setRun : ∀ s r, (g s).setRun r = g (s.setRun r)
  setHostLog : ∀ s l, (g s).setHostLog l = g (s.setHostLog l)

theorem unseen_setExitCode (v : Word) : Unseen fun s => s.setExitCode v := by
  constructor <;> intros <;> rfl

theorem unseen_setFlags (f : Flags) : Unseen fun s => s.setFlags f := by
  constructor <;> intros <;> rfl

namespace Unseen

variable {g : State → State} (h : Unseen g) (s : State)
include h

/-! ### What is read -/

theorem value (a : Src) : (g s).value a = s.value a := State.value_congr (h.reg s) (h.pc s) a

theorem effectiveAddress (base off : Src) : (g s).effectiveAddress base off = s.effectiveAddress base off := by
  simp only [State.effectiveAddress, h.value]

theorem legal (a : Word) (n : Nat) : (g s).legal a n = s.legal a n := State.legal_congr (h.cfg s) a n

theorem loadByte (a : Word) : (g s).loadByte a = s.loadByte a := by simp only [State.loadByte, h.legal, h.mem]

theorem loadWord (a : Word) : (g s).loadWord a = s.loadWord a := by simp only [State.loadWord, h.legal, h.mem]

theorem spStillZero : (g s).spStillZero = s.spStillZero := by simp only [State.spStillZero, h.spWritten, h.reg]

theorem topWord : (g s).topWord = s.topWord := by
  rw [State.topWord, State.topWord, h.spStillZero, h.reg, h.loadWord]

theorem extractString (a : Word) : (g s).extractString a = s.extractString a := by
  simp only [State.extractString, h.loadWord, h.legal, h.mem]

/-! ### What is done -/

theorem afterDecode (i : Instr) : (g s).afterDecode i = g (s.afterDecode i) := by
  simp only [State.afterDecode, h.pc, h.setPc]

theorem dropWord : (g s).dropWord = g s.dropWord := by simp only [State.dropWord, h.reg, h.setReg]

theorem branch (i : Instr) (addr : Src) (taken : Bool) : (g s).branch i addr taken = g (s.branch i addr taken) := by
  simp only [State.branch_eq, h.value, h.pc, h.setPc]

theorem storeByte (a : Word) (b : Byte) : (g s).storeByte a b = g <$> s.storeByte a b := by
  simp only [State.storeByte, h.legal, h.mem, h.setMem]
  split <;> rfl

theorem storeWord (a w : Word) : (g s).storeWord a w = g <$> s.storeWord a w := by
  simp only [State.storeWord, h.legal, h.mem, h.setMem]
  split <;> rfl

theorem pushWord (w : Word) : (g s).pushWord w = g <$> s.pushWord w := by
  simp only [State.pushWord, State.pushAddress, h.reg, h.storeWord]
  cases s.storeWord (s.reg spIndex - 4) w with
  | ok t => exact congrArg Except.ok (h.setReg t _ _)
  | error r => rfl

theorem settle (x : Except FaultRecord State) : (g s).settle (g <$> x) = mapNext g (s.settle x) := by
  cases x with
  | ok t => rfl
  | error r => exact congrArg Host.Outcome.next (h.setRun s _)

/-- An instruction whose last update commutes with the change. -/
theorem settle_map {α : Type} {f f' : α → State} (hf : ∀ a, f' a = g (f a)) (x : Except FaultRecord α) :
    (g s).settle (f' <$> x) = mapNext g (s.settle (f <$> x)) := by
  rw [← h.settle]
  cases x with
  | ok a => exact congrArg _ (congrArg Except.ok (hf a))
  | error r => rfl

theorem alu (i : Instr) (rd : RegIx) (r : Except FaultRecord Word) :
    (g s).alu i rd r = mapNext g (s.alu i rd r) := by
  rw [State.alu_eq_settle, State.alu_eq_settle]
  exact h.settle_map s (fun w => by rw [h.afterDecode, h.setReg]) r

theorem hostCall (i : Instr) (a : Src) (event : List Byte → HostEvent) :
    (g s).hostCall i a event = mapNext g (s.hostCall i a event) := by
  simp only [State.hostCall, h.value, h.extractString, h.afterDecode]
  cases s.extractString (s.value a) with
  | error r => exact congrArg Host.Outcome.next (h.setRun s _)
  | ok bytes =>
    simp only [State.emit, h.hostSilentAt, h.hostLog]
    split
    · rfl
    · exact congrArg Host.Outcome.next (h.setHostLog _ _)

/-! ### Every instruction -/

/-- An instruction other than CMP, EXIT and the branches does the same under the change. -/
theorem exec {i : Instr} (hcmp : isCmp i = false) (hexit : isExit i = false) (hflags : readsFlags i = false) :
    exec i (g s) = mapNext g (exec i s) := by
  cases i with
  | cmp => cases hcmp
  | exit => cases hexit
  | beq | bne | blt | ble | bgt | bge => cases hflags
  | unrecZero => exact congrArg Host.Outcome.next (by simp only [State.halt, h.afterDecode, h.setRun])
  | unrecHigh low =>
    rw [exec_unrecHigh, exec_unrecHigh]
    exact congrArg Host.Outcome.next (by simp only [State.halt, h.afterDecode, h.setRun])
  | mov rd v =>
    rw [exec_mov, exec_mov]
    exact congrArg Host.Outcome.next (by simp only [h.afterDecode, h.value, h.setReg])
  | jmp addr =>
    rw [exec_jmp, exec_jmp]
    exact congrArg Host.Outcome.next (by simp only [h.afterDecode, h.value, h.setPc])
  | add rd v => rw [exec_add, exec_add, h.reg, h.value, h.alu]
  | sub rd v => rw [exec_sub, exec_sub, h.reg, h.value, h.alu]
  | mul rd v => rw [exec_mul, exec_mul, h.reg, h.value, h.alu]
  | div rd v => rw [exec_div, exec_div, h.cfg, h.reg, h.value, h.alu]
  | mod rd v => rw [exec_mod, exec_mod, h.cfg, h.reg, h.value, h.alu]
  | and rd v => rw [exec_and, exec_and, h.reg, h.value, h.alu]
  | or rd v => rw [exec_or, exec_or, h.reg, h.value, h.alu]
  | xor rd v => rw [exec_xor, exec_xor, h.reg, h.value, h.alu]
  | shl rd v => rw [exec_shl, exec_shl, h.cfg, h.reg, h.value, h.alu]
  | shr rd v => rw [exec_shr, exec_shr, h.cfg, h.reg, h.value, h.alu]
  | ldb rd base off =>
    rw [exec_ldb, exec_ldb, h.effectiveAddress, h.loadByte]
    exact h.settle_map s (fun b => by rw [h.afterDecode, h.setReg]) _
  | ldw rd base off =>
    rw [exec_ldw, exec_ldw, h.effectiveAddress, h.loadWord]
    exact h.settle_map s (fun w => by rw [h.afterDecode, h.setReg]) _
  | stb v base off => rw [exec_stb, exec_stb, h.effectiveAddress, h.value, h.afterDecode, h.storeByte, h.settle]
  | stw v base off => rw [exec_stw, exec_stw, h.effectiveAddress, h.value, h.afterDecode, h.storeWord, h.settle]
  | push v => rw [exec_push, exec_push, h.value, h.afterDecode, h.pushWord, h.settle]
  | jsr addr =>
    rw [exec_jsr, exec_jsr, h.value, h.afterDecode, h.pc, h.pushWord, Functor.map_map]
    exact h.settle_map s (fun t => h.setPc t _) _
  | rts =>
    rw [exec_rts, exec_rts, h.topWord]
    exact h.settle_map s (fun ra => by rw [h.afterDecode, h.dropWord, h.setPc]) _
  | pop rd =>
    rw [exec_pop, exec_pop, h.topWord]
    exact h.settle_map s (fun w => by rw [h.afterDecode, h.setReg, h.dropWord]) _
  | println a => rw [exec_of_hostEvent _ rfl, exec_of_hostEvent _ rfl, h.hostCall]
  | print a => rw [exec_of_hostEvent _ rfl, exec_of_hostEvent _ rfl, h.hostCall]
  | run a => rw [exec_of_hostEvent _ rfl, exec_of_hostEvent _ rfl, h.hostCall]

end Unseen

theorem exec_branch_setExitCode {i : Instr} (hi : readsFlags i = true) (s : State) (v : Word) :
    exec i (s.setExitCode v) = mapNext (fun t => t.setExitCode v) (exec i s) := by
  cases i with
  | beq | bne | blt | ble | bgt | bge => exact congrArg Host.Outcome.next ((unseen_setExitCode v).branch s _ _ _)
  | _ => cases hi

theorem exec_cmp_setExitCode (a b : Src) (s : State) (v : Word) :
    exec (.cmp a b) (s.setExitCode v) = mapNext (fun t => t.setExitCode v) (exec (.cmp a b) s) := by
  rw [exec_cmp, exec_cmp, State.value_setExitCode, State.value_setExitCode]
  rfl

/-- Settles O19: an instruction other than EXIT cannot see the exit code, and EXIT overwrites it. -/
theorem exitCodeIsWrittenByExitOnly : Obligations.ExitCodeIsWrittenByExitOnly := by
  refine ⟨rfl, fun s t hstep => ?_, fun i s v hexit => ?_, fun code s v => ?_⟩
  · obtain ⟨-, ⟨r, rfl⟩ | ⟨i, hi, hc⟩⟩ := step_next_spec hstep
    · exact .inl rfl
    · cases i with
      | exit code => exact .inr ⟨code, hi, hc.exitCode⟩
      | _ => exact .inl hc.exitCode
  · cases hcmp : isCmp i with
    | true =>
      cases i with
      | cmp a b => exact exec_cmp_setExitCode a b s v
      | _ => cases hcmp
    | false =>
      cases hflags : readsFlags i with
      | true => exact exec_branch_setExitCode hflags s v
      | false => exact (unseen_setExitCode v).exec s hcmp hexit hflags
  · rw [exec_exit, exec_exit, State.value_setExitCode]
    rfl

/-- Settles O20: an instruction other than CMP and the branches cannot see FLAGS, and CMP overwrites it. -/
theorem flagsAreWrittenByCmpAndReadByBranches : Obligations.FlagsAreWrittenByCmpAndReadByBranches := by
  refine ⟨fun s t hstep => ?_, fun i s f hflags hcmp => ?_, fun a b s f => ?_⟩
  · obtain ⟨-, ⟨r, rfl⟩ | ⟨i, hi, hc⟩⟩ := step_next_spec hstep
    · exact .inl rfl
    · cases hcmp : isCmp i with
      | true => exact .inr ⟨i, hi, hcmp⟩
      | false => exact .inl (hc.flagsKept hcmp)
  · cases hexit : isExit i with
    | true =>
      cases i with
      | exit code => rw [exec_exit, exec_exit, State.value_setFlags]; rfl
      | _ => cases hexit
    | false => exact (unseen_setFlags f).exec s hcmp hexit hflags
  · rw [exec_cmp, exec_cmp, State.value_setFlags, State.value_setFlags]
    rfl

end Sys2Proof.Machine
end

section
/-! The decoder and the encoder agree (spec/30_encoding.md R61 to R71). Each format reads exactly the bytes of its operands, and
so the decoder reads an instruction exactly where its output registers and its inputs stand, the inputs in the modes
that the shape and the mode bits give. -/

namespace Sys2Proof

/-! ### The modes of the inputs -/

/-- The inputs have the modes the decoder reads them in: the first `regs` are register inputs, the others have the mode `m`
(R61, R65). -/
def ModesFit (m : Mode) : Nat → List Src → Prop
  | _, [] => True
  | regs, a :: rest => (a.mode = if decide (0 < regs) then .register else m) ∧ ModesFit m (regs - 1) rest

theorem modesFit_zero {m : Mode} {ins : List Src} : ModesFit m 0 ins ↔ ∀ a ∈ ins, a.mode = m := by
  induction ins with
  | nil => simp [ModesFit]
  | cons a rest ih => simp [ModesFit, ih]

theorem modesFit_iff {m : Mode} {regs : Nat} {ins : List Src} :
    ModesFit m regs ins ↔ (∀ a ∈ ins.take regs, a.mode = .register) ∧ ∀ a ∈ ins.drop regs, a.mode = m := by
  induction ins generalizing regs with
  | nil => simp [ModesFit]
  | cons a rest ih =>
    cases regs with
    | zero => simp [modesFit_zero]
    | succ regs => simp [ModesFit, ih, and_assoc]

/-- Where every input is a register input, the mode bits are ignored (R65). -/
theorem modesFit_congr_mode {m m' : Mode} {regs : Nat} {ins : List Src} (h : ins.length ≤ regs) :
    ModesFit m regs ins ↔ ModesFit m' regs ins := by
  simp [modesFit_iff, List.drop_eq_nil_of_le h]

theorem uniformMode_iff {ins : List Src} : uniformMode ins = true ↔ ∃ m, ∀ a ∈ ins, a.mode = m := by
  cases ins with
  | nil => exact ⟨fun _ => ⟨.register, by simp⟩, fun _ => rfl⟩
  | cons a rest =>
    simp only [uniformMode, List.all_eq_true, beq_iff_eq, List.mem_cons, forall_eq_or_imp]
    exact ⟨fun h => ⟨a.mode, rfl, h⟩, fun ⟨m, ha, h⟩ b hb => (h b hb).trans ha.symm⟩

/-- Inputs that fit a shape are as many as it counts and have the modes that some mode of the instruction gives. -/
theorem Shape.fits_iff {sh : Shape} {ins : List Src} :
    sh.fits ins = true ↔ ins.length = sh.regs + sh.finals ∧ ∃ m, ModesFit m sh.regs ins := by
  simp only [Shape.fits, Bool.and_eq_true, beq_iff_eq, List.all_eq_true, uniformMode_iff, modesFit_iff, exists_and_left,
    and_assoc]

/-- The mode that gives the inputs is the one the encoder writes, where there is a final operand. -/
theorem encodingMode_of_modesFit {m : Mode} {regs : Nat} {ins : List Src} (h : ModesFit m regs ins)
    (hlt : regs < ins.length) : encodingMode regs ins = m := by
  rw [modesFit_iff] at h
  rw [encodingMode]
  cases hd : ins.drop regs with
  | nil => exact absurd (List.drop_eq_nil_iff.mp hd) (by omega)
  | cons a rest => exact h.2 a (by simp [hd])

theorem modesFit_encodingMode {m : Mode} {regs : Nat} {ins : List Src} (h : ModesFit m regs ins) :
    ModesFit (encodingMode regs ins) regs ins := by
  rcases Nat.lt_or_ge regs ins.length with hlt | hge
  · rwa [encodingMode_of_modesFit h hlt]
  · exact (modesFit_congr_mode hge).mp h

/-! ### The formats -/

theorem takeInput_ok_iff {isReg : Bool} {m : Mode} {bytes rest : List Byte} {a : Src} :
    takeInput isReg m bytes = .ok (a, rest) ↔
      (a.mode = if isReg then .register else m) ∧ bytes = a.bytes ++ rest := by
  constructor
  · exact takeFinal_ok
  · rintro ⟨hmode, rfl⟩
    exact takeInput_bytes hmode rest

theorem decodeF1_ok_iff {regs : Nat} {m : Mode} {f : Src → Instr} {bytes rest : List Byte} {i : Instr} :
    decodeF1 regs m f bytes = .ok (i, rest) ↔
      ∃ a, i = f a ∧ ModesFit m regs [a] ∧ bytes = a.bytes ++ rest := by
  constructor
  · intro h
    unfold decodeF1 at h
    split at h
    · next a rest' ha =>
      cases h
      obtain ⟨hmode, rfl⟩ := takeInput_ok_iff.mp ha
      exact ⟨a, rfl, ⟨hmode, trivial⟩, rfl⟩
    · cases h
  · rintro ⟨a, rfl, ⟨hmode, -⟩, rfl⟩
    rw [decodeF1, takeInput_ok_iff.mpr ⟨hmode, rfl⟩]

theorem decodeFO_ok_iff {f : RegIx → Instr} {bytes rest : List Byte} {i : Instr} :
    decodeFO f bytes = .ok (i, rest) ↔ ∃ rd, i = f rd ∧ bytes = rd :: rest := by
  cases bytes with
  | nil => simp [decodeFO, takeByte]
  | cons b bytes => simp [decodeFO, eq_comm]

theorem decodeFOV_ok_iff {m : Mode} {f : RegIx → Src → Instr} {bytes rest : List Byte} {i : Instr} :
    decodeFOV m f bytes = .ok (i, rest) ↔
      ∃ rd a, i = f rd a ∧ ModesFit m 0 [a] ∧ bytes = rd :: (a.bytes ++ rest) := by
  cases bytes with
  | nil => simp [decodeFOV, takeByte]
  | cons b bytes => simp [decodeFOV, decodeF1_ok_iff]

theorem decodeFRV_ok_iff {regs : Nat} {m : Mode} {f : Src → Src → Instr} {bytes rest : List Byte} {i : Instr} :
    decodeFRV regs m f bytes = .ok (i, rest) ↔
      ∃ a b, i = f a b ∧ ModesFit m regs [a, b] ∧ bytes = a.bytes ++ (b.bytes ++ rest) := by
  constructor
  · intro h
    unfold decodeFRV at h
    split at h
    · next a rest' ha =>
      obtain ⟨hmode, rfl⟩ := takeInput_ok_iff.mp ha
      obtain ⟨b, rfl, hfit, rfl⟩ := decodeF1_ok_iff.mp h
      exact ⟨a, b, rfl, ⟨hmode, hfit⟩, rfl⟩
    · cases h
  · rintro ⟨a, b, rfl, ⟨hmode, hfit⟩, rfl⟩
    rw [decodeFRV, takeInput_ok_iff.mpr ⟨hmode, rfl⟩]
    exact decodeF1_ok_iff.mpr ⟨b, rfl, hfit, rfl⟩

theorem decodeFORV_ok_iff {regs : Nat} {m : Mode} {f : RegIx → Src → Src → Instr} {bytes rest : List Byte} {i : Instr} :
    decodeFORV regs m f bytes = .ok (i, rest) ↔
      ∃ rd a b, i = f rd a b ∧ ModesFit m regs [a, b] ∧ bytes = rd :: (a.bytes ++ (b.bytes ++ rest)) := by
  cases bytes with
  | nil => simp [decodeFORV, takeByte]
  | cons b bytes => simp [decodeFORV, decodeFRV_ok_iff]

theorem decodeFRRV_ok_iff {regs : Nat} {m : Mode} {f : Src → Src → Src → Instr} {bytes rest : List Byte} {i : Instr} :
    decodeFRRV regs m f bytes = .ok (i, rest) ↔
      ∃ a b c, i = f a b c ∧ ModesFit m regs [a, b, c] ∧ bytes = a.bytes ++ (b.bytes ++ (c.bytes ++ rest)) := by
  constructor
  · intro h
    unfold decodeFRRV at h
    split at h
    · next a rest' ha =>
      obtain ⟨hmode, rfl⟩ := takeInput_ok_iff.mp ha
      obtain ⟨b, c, rfl, hfit, rfl⟩ := decodeFRV_ok_iff.mp h
      exact ⟨a, b, c, rfl, ⟨hmode, hfit⟩, rfl⟩
    · cases h
  · rintro ⟨a, b, c, rfl, ⟨hmode, hfit⟩, rfl⟩
    rw [decodeFRRV, takeInput_ok_iff.mpr ⟨hmode, rfl⟩]
    exact decodeFRV_ok_iff.mpr ⟨b, c, rfl, hfit, rfl⟩

/-! ### The operands of every instruction -/

/-- The bytes of the operands, in the order of R62: the output registers, then the inputs. -/
def operandBytes (outs : List RegIx) (ins : List Src) : List Byte := outs ++ (ins.map Src.bytes).flatten

/-- The instruction has the mnemonic `op`, its inputs have the modes that the mode bits `m` give, and `bytes` are its operands
followed by `rest`. -/
def ReadsAs (c : Config) (op : Op) (m : Mode) (bytes : List Byte) (i : Instr) (rest : List Byte) : Prop :=
  ∃ outs ins, i.parts = some (op, outs, ins) ∧ ModesFit m (c.shape op).regs ins ∧ bytes = operandBytes outs ins ++ rest

/-- What the decoder reads was there to be read. -/
theorem readsAs_of_decodeOperands {c : Config} {op : Op} {m : Mode} {bytes rest : List Byte} {i : Instr}
    (h : decodeOperands c op m bytes = .ok (i, rest)) : ReadsAs c op m bytes i rest := by
  cases op with
  | rts => cases h; exact ⟨[], [], rfl, trivial, rfl⟩
  | pop => obtain ⟨rd, rfl, rfl⟩ := decodeFO_ok_iff.mp h; exact ⟨[rd], [], rfl, trivial, rfl⟩
  | jmp | jsr | beq | bne | blt | ble | bgt | bge | push | exit | println | print | run =>
    obtain ⟨a, rfl, hfit, rfl⟩ := decodeF1_ok_iff.mp h
    exact ⟨[], [a], rfl, hfit, by simp [operandBytes]⟩
  | mov | add | sub | mul | div | mod | and | or | xor | shl | shr =>
    obtain ⟨rd, a, rfl, hfit, rfl⟩ := decodeFOV_ok_iff.mp h
    exact ⟨[rd], [a], rfl, hfit, by simp [operandBytes]⟩
  | cmp =>
    obtain ⟨a, b, rfl, hfit, rfl⟩ := decodeFRV_ok_iff.mp h
    exact ⟨[], [a, b], rfl, hfit, by simp [operandBytes]⟩
  | ldb | ldw =>
    obtain ⟨rd, a, b, rfl, hfit, rfl⟩ := decodeFORV_ok_iff.mp h
    exact ⟨[rd], [a, b], rfl, hfit, by simp [operandBytes]⟩
  | stb | stw =>
    obtain ⟨a, b, d, rfl, hfit, rfl⟩ := decodeFRRV_ok_iff.mp h
    exact ⟨[], [a, b, d], rfl, hfit, by simp [operandBytes]⟩

/-- What is there to be read is what the decoder reads. -/
theorem decodeOperands_of_readsAs {c : Config} {op : Op} {m : Mode} {bytes rest : List Byte} {i : Instr}
    (h : ReadsAs c op m bytes i rest) : decodeOperands c op m bytes = .ok (i, rest) := by
  obtain ⟨outs, ins, hparts, hfit, rfl⟩ := h
  cases i with
  | unrecZero | unrecHigh => cases hparts
  | rts => cases hparts; rfl
  | pop rd => cases hparts; exact decodeFO_ok_iff.mpr ⟨rd, rfl, rfl⟩
  | jmp a | jsr a | beq a | bne a | blt a | ble a | bgt a | bge a | push a | exit a | println a | print a | run a =>
    cases hparts
    rw [decodeOperands, decodeF1_ok_iff]
    exact ⟨a, rfl, hfit, by simp [operandBytes]⟩
  | mov rd a | add rd a | sub rd a | mul rd a | div rd a | mod rd a | and rd a | or rd a | xor rd a | shl rd a | shr rd a =>
    cases hparts
    rw [decodeOperands, decodeFOV_ok_iff]
    exact ⟨rd, a, rfl, hfit, by simp [operandBytes]⟩
  | cmp a b =>
    cases hparts
    rw [decodeOperands, decodeFRV_ok_iff]
    exact ⟨a, b, rfl, hfit, by simp [operandBytes]⟩
  | ldb rd a b | ldw rd a b =>
    cases hparts
    rw [decodeOperands, decodeFORV_ok_iff]
    exact ⟨rd, a, b, rfl, hfit, by simp [operandBytes]⟩
  | stb a b d | stw a b d =>
    cases hparts
    rw [decodeOperands, decodeFRRV_ok_iff]
    exact ⟨a, b, d, rfl, hfit, by simp [operandBytes]⟩

theorem decodeOperands_ok_iff {c : Config} {op : Op} {m : Mode} {bytes rest : List Byte} {i : Instr} :
    decodeOperands c op m bytes = .ok (i, rest) ↔ ReadsAs c op m bytes i rest :=
  ⟨readsAs_of_decodeOperands, decodeOperands_of_readsAs⟩

/-! ### Well-formed instructions -/

theorem wellFormed_of_parts {c : Config} {i : Instr} {op : Op} {outs : List RegIx} {ins : List Src}
    (h : i.parts = some (op, outs, ins)) : i.wellFormed c = (c.shape op).fits ins := by
  cases i <;> cases h <;> rfl

/-- An instruction has as many inputs as its shape counts, under every legal split of them (R63). -/
theorem length_inputs_of_parts {c : Config} {i : Instr} {op : Op} {outs : List RegIx} {ins : List Src}
    (h : i.parts = some (op, outs, ins)) : ins.length = (c.shape op).regs + (c.shape op).finals := by
  cases i with
  | unrecZero | unrecHigh => cases h
  | ldb | ldw | stb | stw | cmp | push => cases h; simp only [Config.shape, List.length_cons, List.length_nil]; omega
  | _ => cases h; rfl

/-- An instruction without a mnemonic is an unrecognized opcode. -/
theorem eq_unrec_of_parts_eq_none {i : Instr} (h : i.parts = none) : i = .unrecZero ∨ ∃ low, i = .unrecHigh low := by
  cases i with
  | unrecZero => exact .inl rfl
  | unrecHigh low => exact .inr ⟨low, rfl⟩
  | _ => cases h

/-! ### The unrecognized opcodes -/

/-- The low five bits of an opcode byte are those of its opcode number. -/
theorem extract_opcodeField (b : Byte) : (opcodeField b).extractLsb' 0 5 = b.extractLsb' 0 5 := by
  revert b; decide

/-- An unrecognized opcode number from 32 on is its low five bits behind a one. -/
theorem append_low_of_ge {n : BitVec 6} (h : 32 ≤ n.toNat) : 1#1 ++ n.extractLsb' 0 5 = n := by
  revert n; decide

theorem opcode_of_opAt_eq_none {c : Config} {n : BitVec 6} (h : c.opAt n = none) (hn : n ≠ 0) : 32 ≤ n.toNat := by
  by_contra hlt
  have hpos : n.toNat ≠ 0 := fun h0 => hn (BitVec.eq_of_toNat_eq h0)
  rw [Config.opAt, dif_pos (by omega)] at h
  cases h

theorem decode_unrecHigh {c : Config} {b : Byte} {low : BitVec 5} (h : opcodeField b = 1#1 ++ low) (rest : List Byte) :
    decode c (b :: rest) = .ok (.unrecHigh low, rest) := by
  have hlow : (1#1 ++ low).extractLsb' 0 5 = low := by clear h; revert low; decide
  have hge : 32 ≤ (1#1 ++ low).toNat := by clear h hlow; revert low; decide
  rw [decode_of_opAt_eq_none (Config.opAt_eq_none (.inr (h ▸ hge))), unrecognized, if_neg ?_, ← extract_opcodeField, h, hlow]
  rw [h]
  rintro h0
  simp [h0] at hge

/-! ### Decoding inverts encoding -/

theorem modesFit_of_wellFormed {c : Config} {i : Instr} {op : Op} {outs : List RegIx} {ins : List Src}
    (hparts : i.parts = some (op, outs, ins)) (hwf : i.wellFormed c = true) :
    ModesFit (encodingMode (c.shape op).regs ins) (c.shape op).regs ins := by
  rw [wellFormed_of_parts hparts, Shape.fits_iff] at hwf
  obtain ⟨-, m, hfit⟩ := hwf
  exact modesFit_encodingMode hfit

/-- Settles O8: the opcode byte gives the mnemonic and the mode back, and the operands stand where the decoder reads them; an
unrecognized opcode is its byte alone. -/
theorem decodeInvertsEncode : Obligations.DecodeInvertsEncode := by
  rintro c i rest ⟨-, -, hnodup⟩ hwf
  cases hparts : i.parts with
  | some p =>
    obtain ⟨op, outs, ins⟩ := p
    rw [encode_of_parts hparts, List.cons_append, decode_opcodeByte hnodup, decodeOperands_ok_iff]
    exact ⟨outs, ins, hparts, modesFit_of_wellFormed hparts hwf, rfl⟩
  | none =>
    obtain rfl | ⟨low, rfl⟩ := eq_unrec_of_parts_eq_none hparts
    · exact decode_of_opcodeField_eq_zero (by decide) c rest
    · exact decode_unrecHigh (opcodeField_opcodeByte _ _) rest

/-! ### Encoding inverts decoding -/

/-- An opcode byte is its mode and its opcode number. -/
theorem opcodeByte_fields (b : Byte) : opcodeByte (modeField b) (opcodeField b) = b := by
  revert b; decide

/-- A bijective OPCODE_OF gives a mnemonic no second number. -/
theorem Config.opcodeOf_of_opAt {c : Config} (hnodup : c.opcodes.toList.Nodup) {n : BitVec 6} {op : Op}
    (h : c.opAt n = some op) : c.opcodeOf op = n := by
  unfold Config.opAt at h
  split at h
  · next hn =>
    obtain ⟨hlow, hhigh⟩ := hn
    have hlt : n.toNat - 1 < c.opcodes.toList.length := by simp; omega
    have hidx : c.opcodes.toList.idxOf op = n.toNat - 1 := by
      rw [← Option.some.inj h, ← Vector.getElem_toList hlt]
      exact hnodup.idxOf_getElem _ hlt
    apply BitVec.eq_of_toNat_eq
    rw [Config.toNat_opcodeOf hnodup, hidx]
    omega
  · cases h

/-- What the decoder can have read from an opcode byte and the bytes after it. -/
theorem decode_ok_cases {c : Config} {bytes rest : List Byte} {i : Instr} (h : decode c bytes = .ok (i, rest)) :
    ∃ b after, bytes = b :: after ∧
      ((∃ op, c.opAt (opcodeField b) = some op ∧ ReadsAs c op (modeField b) after i rest) ∨
        (c.opAt (opcodeField b) = none ∧ i = unrecognized b ∧ after = rest)) := by
  cases bytes with
  | nil => cases h
  | cons b after =>
    refine ⟨b, after, rfl, ?_⟩
    cases hop : c.opAt (opcodeField b) with
    | some op =>
      rw [decode, hop] at h
      exact .inl ⟨op, rfl, decodeOperands_ok_iff.mp h⟩
    | none =>
      rw [decode_of_opAt_eq_none hop] at h
      cases h
      exact .inr ⟨rfl, rfl, rfl⟩

theorem parts_unrecognized (b : Byte) : (unrecognized b).parts = none := by
  unfold unrecognized; split <;> rfl

/-- The encoder writes an unrecognized opcode as one byte with the same opcode number. -/
theorem encode_unrecognized {c : Config} {b : Byte} (h : c.opAt (opcodeField b) = none) :
    ∃ b', encode c (unrecognized b) = [b'] ∧ opcodeField b' = opcodeField b := by
  by_cases h0 : opcodeField b = 0
  · refine ⟨0, by rw [unrecognized, if_pos h0]; rfl, ?_⟩
    rw [h0]; decide
  · refine ⟨_, by rw [unrecognized, if_neg h0]; rfl, ?_⟩
    rw [opcodeField_opcodeByte, ← extract_opcodeField, append_low_of_ge (opcode_of_opAt_eq_none h h0)]

/-- Settles O9: what the decoder read fits the shape and is written by the encoder in the same order, behind an opcode byte with
the same number and, where a final operand shows it, the same mode. -/
theorem encodeInvertsDecode : Obligations.EncodeInvertsDecode := by
  rintro c bytes rest i ⟨-, -, hnodup⟩ hdecode
  obtain ⟨b, after, rfl, ⟨op, hop, outs, ins, hparts, hfit, rfl⟩ | ⟨hop, rfl, rfl⟩⟩ := decode_ok_cases hdecode
  · have hlen := length_inputs_of_parts (c := c) hparts
    have hopcode := Config.opcodeOf_of_opAt hnodup hop
    refine ⟨?_, b, _, operandBytes outs ins, rfl, encode_of_parts hparts, ?_, ?_⟩
    · rw [wellFormed_of_parts hparts, Shape.fits_iff]
      exact ⟨hlen, _, hfit⟩
    · rw [opcodeField_opcodeByte, hopcode]
    · intro op' outs' ins' hparts' hfinals
      cases hparts.symm.trans hparts'
      rw [encodingMode_of_modesFit hfit (by omega), hopcode, opcodeByte_fields]
  · obtain ⟨b', hencode, hfield⟩ := encode_unrecognized hop
    refine ⟨?_, b, b', [], rfl, hencode, hfield, fun op outs ins hparts => ?_⟩
    · obtain h | ⟨low, h⟩ := eq_unrec_of_parts_eq_none (parts_unrecognized b) <;> rw [h] <;> rfl
    · rw [parts_unrecognized] at hparts
      cases hparts

/-! ### Mode bits that are ignored -/

/-- Decoding fails in one way alone, so two results are equal where they succeed alike. -/
theorem decoded_ext {α : Type} {x y : Decoded α} (h : ∀ a, x = .ok a ↔ y = .ok a) : x = y := by
  cases x with
  | ok a => exact ((h a).mp rfl).symm
  | error e =>
    cases y with
    | ok a => exact (h a).mpr rfl
    | error e' => cases e; cases e'; rfl

theorem decodeOperands_congr_mode {c : Config} {op : Op} (h : (c.shape op).finals = 0) (m m' : Mode)
    (bytes : List Byte) : decodeOperands c op m bytes = decodeOperands c op m' bytes := by
  refine decoded_ext fun ⟨i, rest⟩ => ?_
  rw [decodeOperands_ok_iff, decodeOperands_ok_iff]
  refine exists_congr fun outs => exists_congr fun ins => and_congr_right fun hparts => ?_
  rw [modesFit_congr_mode (m := m) (m' := m')]
  have := length_inputs_of_parts (c := c) hparts
  omega

/-- Settles O11: without a final operand the modes of the inputs do not depend on the mode bits, and an unrecognized opcode is
known by its number. -/
theorem modeBitsIgnoredWithoutFinalOperand : Obligations.ModeBitsIgnoredWithoutFinalOperand := by
  intro c b b' rest hfield hfinals
  cases hop : c.opAt (opcodeField b) with
  | some op =>
    rw [decode, decode, ← hfield, hop]
    exact decodeOperands_congr_mode (hfinals op hop) _ _ rest
  | none =>
    rw [decode_of_opAt_eq_none hop, decode_of_opAt_eq_none (hfield ▸ hop), unrecognized, unrecognized,
      ← extract_opcodeField b, ← extract_opcodeField b', hfield]

/-- Settles O12: each of the 31 words is decoded by evaluation. -/
theorem writtenOutWordsDecode : Obligations.WrittenOutWordsDecode := by
  unfold Obligations.WrittenOutWordsDecode
  decide

end Sys2Proof
end

section
/-! Fetching and decoding at the pc (spec/30_encoding.md R60, R61;
spec/60_exceptions.md R171, R173; spec/20_memory.md section 8). -/

namespace Sys2Proof

/-! ### The bytes of an instruction -/

theorem length_of_parts {i : Instr} {op : Op} {outs : List RegIx} {ins : List Src}
    (h : i.parts = some (op, outs, ins)) : i.length = 1 + (operandBytes outs ins).length := by
  have hsum : ((ins.map Src.bytes).flatten).length = (ins.map fun a => a.bytes.length).sum := by
    rw [List.length_flatten, List.map_map]
    rfl
  rw [Instr.length, h, operandBytes, List.length_append, hsum, ← Nat.add_assoc]

/-- Decoding takes the instruction's own bytes, however many follow. -/
theorem decode_append {c : Config} {bytes rest : List Byte} {i : Instr} (h : decode c bytes = .ok (i, rest))
    (extra : List Byte) : decode c (bytes ++ extra) = .ok (i, rest ++ extra) := by
  obtain ⟨b, after, rfl, ⟨op, hop, outs, ins, hparts, hfit, rfl⟩ | ⟨hop, rfl, rfl⟩⟩ := decode_ok_cases h
  · rw [List.cons_append, decode, hop]
    exact decodeOperands_ok_iff.mpr ⟨outs, ins, hparts, hfit, List.append_assoc _ _ _⟩
  · exact decode_of_opAt_eq_none hop _

/-- The length of an instruction is the number of bytes it was decoded from (R70). -/
theorem length_add_of_decode {c : Config} {bytes rest : List Byte} {i : Instr} (h : decode c bytes = .ok (i, rest)) :
    i.length + rest.length = bytes.length := by
  obtain ⟨b, after, rfl, ⟨op, -, outs, ins, hparts, -, rfl⟩ | ⟨-, rfl, rfl⟩⟩ := decode_ok_cases h
  · rw [length_of_parts hparts, List.length_cons, List.length_append]
    omega
  · rw [Instr.length, parts_unrecognized, List.length_cons, Nat.add_comm]

/-- An instruction decoded from these bytes alone is no longer than the window of a fetch. -/
theorem length_le_maxLength_of_decode {c : Config} {bytes : List Byte} {i : Instr} (h : decode c bytes = .ok (i, [])) :
    bytes.length ≤ maxLength := by
  by_contra hlong
  have hwindow : (bytes.take maxLength).length = maxLength := by rw [List.length_take]; omega
  obtain ⟨i', rest, hdecode, hread⟩ := decode_readsWithin c (bytes.take maxLength) hwindow.ge
  have hall := decode_append hdecode (bytes.drop maxLength)
  rw [List.take_append_drop, h, Except.ok.injEq, Prod.mk.injEq] at hall
  have hnil := congrArg List.length hall.2
  rw [List.length_append, List.length_drop, List.length_nil] at hnil
  omega

end Sys2Proof

namespace Sys2Proof.Machine

/-! ### The window -/

theorem add_ofNat_succ (a : Word) (k : Nat) : a + 1 + BitVec.ofNat 32 k = a + BitVec.ofNat 32 (k + 1) := by
  rw [BitVec.add_assoc, Nat.add_comm k 1, BitVec.ofNat_add]
  rfl

theorem State.fetchBytes_of_not_legal {s : State} {a : Word} (h : s.legal a 1 = false) (n : Nat) :
    s.fetchBytes a n = [] := by
  cases n with
  | zero => rfl
  | succ n => simp [State.fetchBytes, h]

/-- Bytes that stand in memory are fetched in their order, and the fetch goes on behind them. -/
theorem State.fetchBytes_eq_append {s : State} {a : Word} {n : Nat} {bytes : List Byte}
    (h : ∀ k (hk : k < bytes.length), s.legal (a + BitVec.ofNat 32 k) 1 = true ∧
      s.mem.read (a + BitVec.ofNat 32 k).toNat = bytes[k])
    (hn : bytes.length ≤ n) :
    s.fetchBytes a n = bytes ++ s.fetchBytes (a + BitVec.ofNat 32 bytes.length) (n - bytes.length) := by
  induction bytes generalizing a n with
  | nil => simp
  | cons b rest ih =>
    obtain ⟨n, rfl⟩ : ∃ m, n = m + 1 := ⟨n - 1, by simp only [List.length_cons] at hn; omega⟩
    obtain ⟨hlegal, hread⟩ := h 0 (by simp)
    simp only [BitVec.add_zero, List.getElem_cons_zero] at hlegal hread
    have hrest := ih (a := a + 1) (n := n)
      (fun k hk => by
        rw [add_ofNat_succ]
        exact h (k + 1) (Nat.succ_lt_succ hk))
      (by simpa using hn)
    rw [State.fetchBytes, if_pos hlegal, hread, hrest, add_ofNat_succ, List.length_cons, Nat.add_sub_add_right,
      List.cons_append]

/-- The byte that a fetch reads at a distance, where every byte up to it is in memory. -/
theorem State.getElem?_fetchBytes {s : State} {a : Word} {n j : Nat} (hj : j < n)
    (h : ∀ m, m ≤ j → s.legal (a + BitVec.ofNat 32 m) 1 = true) :
    (s.fetchBytes a n)[j]? = some (s.mem.read (a + BitVec.ofNat 32 j).toNat) := by
  induction j generalizing a n with
  | zero =>
    obtain ⟨n, rfl⟩ : ∃ m, n = m + 1 := ⟨n - 1, by omega⟩
    have hlegal := h 0 (Nat.le_refl 0)
    simp only [BitVec.add_zero] at hlegal ⊢
    rw [State.fetchBytes, if_pos hlegal, List.getElem?_cons_zero]
  | succ j ih =>
    obtain ⟨n, rfl⟩ : ∃ m, n = m + 1 := ⟨n - 1, by omega⟩
    have hlegal := h 0 (Nat.zero_le _)
    simp only [BitVec.add_zero] at hlegal
    rw [State.fetchBytes, if_pos hlegal, List.getElem?_cons_succ, ih (by omega), add_ofNat_succ]
    intro m hm
    rw [add_ofNat_succ]
    exact h (m + 1) (by omega)

/-! ### The step -/

theorem State.fetchInstr_of_bytesAtPc {s : State} {bytes : List Byte} {i : Instr} (hbytes : BytesAtPc s bytes)
    (h : decode s.cfg bytes = .ok (i, [])) : s.fetchInstr = .ok i := by
  have hwindow := State.fetchBytes_eq_append hbytes (length_le_maxLength_of_decode h)
  rw [State.fetchInstr, State.fetchWindow, hwindow, decode_append h]

/-- Settles O14: the window starts with these bytes, and the decoder takes them and no more. -/
theorem stepRunsTheDecodedInstruction : Obligations.StepRunsTheDecodedInstruction := by
  intro s bytes i hrun hbytes hdecode
  exact ⟨step_of_fetchInstr_ok hrun (State.fetchInstr_of_bytesAtPc hbytes hdecode), length_add_of_decode hdecode⟩

theorem State.fetchInstr_of_truncated {s : State} {bytes : List Byte} (hbytes : BytesAtPc s bytes)
    (h : decode s.cfg bytes = .error .truncated) (hend : s.legal (s.pc + BitVec.ofNat 32 bytes.length) 1 = false) :
    s.fetchInstr = .error ⟨.fetchRange, s.pc + BitVec.ofNat 32 bytes.length⟩ := by
  have hshort : bytes.length ≤ maxLength := by
    by_contra hlong
    obtain ⟨i, rest, hi⟩ := exists_decode_eq_ok s.cfg (Nat.le_of_not_le hlong)
    exact absurd (h.symm.trans hi) (by simp)
  have hwindow : s.fetchWindow = bytes := by
    rw [State.fetchWindow, State.fetchBytes_eq_append hbytes hshort, State.fetchBytes_of_not_legal hend, List.append_nil]
  rw [State.fetchInstr, hwindow, h]

/-- Settles O15: the window is exactly these bytes, so the fetch fails at the address behind them. -/
theorem fetchFaultsAtTheFirstMissingByte : Obligations.FetchFaultsAtTheFirstMissingByte := by
  intro s bytes hrun hbytes hdecode hend
  exact step_of_fetchInstr_error hrun (State.fetchInstr_of_truncated hbytes hdecode hend)

/-- A pc outside memory faults at once. -/
theorem step_of_pc_not_legal {s : State} (hrun : s.run = .running) (h : s.legal s.pc 1 = false) :
    step s = .next (s.setRun (.faulted ⟨.fetchRange, s.pc⟩)) := by
  have hfault := fetchFaultsAtTheFirstMissingByte s [] hrun (fun k hk => absurd hk (Nat.not_lt_zero k)) rfl
  simp only [List.length_nil, BitVec.add_zero] at hfault
  exact hfault h

/-- Settles O25: a completed store left byte k of the word there, a later fetch that reaches it reads that address. -/
theorem nextFetchSeesTheStore : Obligations.NextFetchSeesTheStore := by
  intro i s t u a w n j k hrun hwf hstores hw hexec ht hcfg hk hsame hj haddr hlegal
  have hc := completed_of_running hexec ht
  have hfit := (State.legal_iff_toNat s a n).mp (hc.legal a n hstores)
  have hn : n ≤ 4 := by
    cases i with
    | stb | stw | push | jsr => cases hstores; decide
    | _ => cases hstores
  have hsum : (a + BitVec.ofNat 32 k).toNat = a.toNat + k := by
    rw [BitVec.toNat_add, BitVec.toNat_ofNat]
    omega
  refine ⟨wordByte w k, ?_, toNat_wordByte w k⟩
  rw [State.fetchWindow, State.getElem?_fetchBytes hj hlegal, haddr, hsum, hsame, hc.read_stored hwf hstores hw hk]

end Sys2Proof.Machine
end

section
/-! The default encodings of every format (spec/30_encoding.md R60, R67, R71), and the instructions JMP, EXIT and the high
opcodes, whose statements give their encoding too. -/

namespace Sys2Proof.Machine

/-- The default OPCODE_OF gives this mnemonic the number `n` (R67). -/
def HasNumber (n : Nat) (op : Op) : Prop := n < 64 ∧ Config.default.opAt (BitVec.ofNat 6 n) = some op

/-- Under the default parameters an opcode byte and the operands behind it decode to their instruction, and its length is
theirs. -/
theorem decode_default_of_parts {n : Nat} {i : Instr} {op : Op} {outs : List RegIx} {ins : List Src}
    (hn : HasNumber n op) (hparts : i.parts = some (op, outs, ins)) (m : BitVec 2)
    (hfit : ModesFit (Mode.ofBits m) (Config.default.shape op).regs ins) (rest : List Byte) :
    decode Config.default (BitVec.ofNat 8 (m.toNat * 64 + n) :: (operandBytes outs ins ++ rest)) = .ok (i, rest) ∧
      i.length = 1 + (operandBytes outs ins).length := by
  refine ⟨?_, length_of_parts hparts⟩
  rw [decode_ofNat hn.1 hn.2, decodeOperands_ok_iff]
  exact ⟨outs, ins, hparts, hfit, rfl⟩

theorem encodedF0_of_parts {n : Nat} {op : Op} {i : Instr} (hn : HasNumber n op) (hparts : i.parts = some (op, [], [])) :
    EncodedF0 n i :=
  fun m rest => decode_default_of_parts hn hparts m trivial rest

theorem encodedFO_of_parts {n : Nat} {op : Op} {f : RegIx → Instr} (hn : HasNumber n op)
    (hparts : ∀ rd, (f rd).parts = some (op, [rd], [])) : EncodedFO n f :=
  fun m rd rest => decode_default_of_parts hn (hparts rd) m trivial rest

/-- A format whose last operand is its one final operand: the bytes before it are `k` registers. -/
theorem decode_default_of_final {n k : Nat} {i : Instr} {op : Op} {outs : List RegIx} {ins : List Src} {v : Src}
    {front : List Byte} (hn : HasNumber n op) (hparts : i.parts = some (op, outs, ins))
    (hfit : ModesFit v.mode (Config.default.shape op).regs ins) (hbytes : operandBytes outs ins = front ++ v.bytes)
    (hk : front.length = k) (rest : List Byte) :
    decode Config.default (BitVec.ofNat 8 (v.mode.toBits.toNat * 64 + n) :: (front ++ (v.bytes ++ rest))) = .ok (i, rest) ∧
      i.length = if v.mode = .immediate32 then k + 5 else k + 2 := by
  obtain ⟨hdecode, hlength⟩ := decode_default_of_parts hn hparts v.mode.toBits (by rwa [Mode.ofBits_toBits]) rest
  rw [hbytes] at hdecode hlength
  refine ⟨by rwa [List.append_assoc] at hdecode, ?_⟩
  rw [hlength, List.length_append, hk, Src.length_bytes]
  split <;> omega

theorem encodedF1_of_parts {n : Nat} {op : Op} {f : Src → Instr} (hn : HasNumber n op)
    (hregs : (Config.default.shape op).regs = 0) (hparts : ∀ v, (f v).parts = some (op, [], [v])) : EncodedF1 n f :=
  fun v rest => decode_default_of_final (front := []) hn (hparts v) (by simp [hregs, ModesFit]) (by simp [operandBytes])
    rfl rest

theorem encodedFRV_of_parts {n : Nat} {op : Op} {f : Src → Src → Instr} (hn : HasNumber n op)
    (hregs : (Config.default.shape op).regs = 1) (hparts : ∀ a v, (f a v).parts = some (op, [], [a, v])) :
    EncodedFRV n f :=
  fun r v rest => decode_default_of_final (front := [r]) hn (hparts _ v) (by simp [hregs, ModesFit, Src.mode])
    (by simp [operandBytes, Src.bytes]) rfl rest

theorem encodedFORV_of_parts {n : Nat} {op : Op} {f : RegIx → Src → Src → Instr} (hn : HasNumber n op)
    (hregs : (Config.default.shape op).regs = 1) (hparts : ∀ rd a v, (f rd a v).parts = some (op, [rd], [a, v])) :
    EncodedFORV n f :=
  fun rd r v rest => decode_default_of_final (front := [rd, r]) hn (hparts rd _ v)
    (by simp [hregs, ModesFit, Src.mode]) (by simp [operandBytes, Src.bytes]) rfl rest

theorem encodedFRRV_of_parts {n : Nat} {op : Op} {f : Src → Src → Src → Instr} (hn : HasNumber n op)
    (hregs : (Config.default.shape op).regs = 2) (hparts : ∀ a b v, (f a b v).parts = some (op, [], [a, b, v])) :
    EncodedFRRV n f :=
  fun r q v rest => decode_default_of_final (front := [r, q]) hn (hparts _ _ v) (by simp [hregs, ModesFit, Src.mode])
    (by simp [operandBytes, Src.bytes]) rfl rest

/-- Each mnemonic has its place in the table of R67. -/
theorem hasNumber_default (op : Op) : HasNumber (defaultOpcodes.toList.idxOf op + 1) op := by
  unfold HasNumber
  cases op <;> decide

theorem encodedFOV_of_number {op : Op} {f : RegIx → Src → Instr}
    (hdecode : ∀ m, decodeOperands Config.default op m = decodeFOV m f)
    (hparts : ∀ rd v, (f rd v).parts = some (op, [rd], [v])) : EncodedFOV (defaultOpcodes.toList.idxOf op + 1) f :=
  encodedFOV_of_decodeOperands (hasNumber_default op).1 (hasNumber_default op).2 hdecode hparts

/-- Settles O55: the number, the shape and the operands of each instruction, by format. -/
theorem defaultEncodings : Obligations.DefaultEncodings :=
  ⟨encodedFOV_of_number (op := .mov) (fun _ => rfl) fun _ _ => rfl,
    encodedFORV_of_parts (hasNumber_default .ldb) rfl fun _ _ _ => rfl,
    encodedFORV_of_parts (hasNumber_default .ldw) rfl fun _ _ _ => rfl,
    encodedFRRV_of_parts (hasNumber_default .stb) rfl fun _ _ _ => rfl,
    encodedFRRV_of_parts (hasNumber_default .stw) rfl fun _ _ _ => rfl,
    encodedF1_of_parts (hasNumber_default .jmp) rfl fun _ => rfl,
    encodedF1_of_parts (hasNumber_default .jsr) rfl fun _ => rfl,
    encodedF0_of_parts (hasNumber_default .rts) rfl,
    encodedF1_of_parts (hasNumber_default .beq) rfl fun _ => rfl,
    encodedF1_of_parts (hasNumber_default .bne) rfl fun _ => rfl,
    encodedF1_of_parts (hasNumber_default .blt) rfl fun _ => rfl,
    encodedF1_of_parts (hasNumber_default .ble) rfl fun _ => rfl,
    encodedF1_of_parts (hasNumber_default .bgt) rfl fun _ => rfl,
    encodedF1_of_parts (hasNumber_default .bge) rfl fun _ => rfl,
    encodedFRV_of_parts (hasNumber_default .cmp) rfl fun _ _ => rfl,
    encodedF1_of_parts (hasNumber_default .push) rfl fun _ => rfl,
    encodedFO_of_parts (hasNumber_default .pop) fun _ => rfl,
    encodedFOV_of_number (op := .add) (fun _ => rfl) fun _ _ => rfl,
    encodedFOV_of_number (op := .sub) (fun _ => rfl) fun _ _ => rfl,
    encodedFOV_of_number (op := .mul) (fun _ => rfl) fun _ _ => rfl,
    encodedFOV_of_number (op := .div) (fun _ => rfl) fun _ _ => rfl,
    encodedFOV_of_number (op := .mod) (fun _ => rfl) fun _ _ => rfl,
    encodedFOV_of_number (op := .and) (fun _ => rfl) fun _ _ => rfl,
    encodedFOV_of_number (op := .or) (fun _ => rfl) fun _ _ => rfl,
    encodedFOV_of_number (op := .xor) (fun _ => rfl) fun _ _ => rfl,
    encodedFOV_of_number (op := .shl) (fun _ => rfl) fun _ _ => rfl,
    encodedFOV_of_number (op := .shr) (fun _ => rfl) fun _ _ => rfl,
    encodedF1_of_parts (hasNumber_default .exit) rfl fun _ => rfl,
    encodedF1_of_parts (hasNumber_default .println) rfl fun _ => rfl,
    encodedF1_of_parts (hasNumber_default .print) rfl fun _ => rfl,
    encodedF1_of_parts (hasNumber_default .run) rfl fun _ => rfl⟩

/-! ### JMP, EXIT and the high opcodes -/

theorem State.legal_eq_false_iff {s : State} {a : Word} {n : Nat} :
    s.legal a n = false ↔ ¬ (0 ≤ a.toInt ∧ a.toInt + n ≤ s.cfg.memSize) := by
  rw [← Bool.not_eq_true, State.legal_iff]

/-- Settles O31: JMP sets the pc alone, and a running machine whose pc is outside memory faults at its first fetch. -/
theorem jmpSetsThePc : Obligations.JmpSetsThePc := by
  refine ⟨encodedF1_of_parts (hasNumber_default .jmp) rfl fun _ => rfl, fun addr s => ?_⟩
  have hc : Completed (.jmp addr) s (s.setPc (s.value addr)) := .setPc rfl rfl rfl _
  exact ⟨_, exec_jmp s addr, rfl, hc.onlyRegs rfl rfl, fun hrun hout =>
    step_of_pc_not_legal hrun (State.legal_eq_false_iff.mpr hout)⟩

/-- Settles O49: EXIT is the write of the code and the halt, and its frame is that of a completed instruction. -/
theorem exitSetsTheCodeAndHalts : Obligations.ExitSetsTheCodeAndHalts := by
  refine ⟨encodedF1_of_parts (hasNumber_default .exit) rfl fun _ => rfl, fun code s => ?_⟩
  have hc : Completed (.exit code) s ((s.afterDecode (.exit code)).setExitCode (s.value code)).halt := .halt rfl
  exact ⟨_, exec_exit s code, rfl, rfl, rfl, hc.regsKept, hc.memSame rfl, rfl, rfl, rfl, rfl⟩

theorem opcodeField_of_high {b : Byte} (h : b.getLsbD 5 = true) : opcodeField b = 1#1 ++ b.setWidth 5 := by
  revert b; decide

/-- Settles O51: bit 5 makes the opcode number 32 or more, which no OPCODE_OF assigns, and the instruction only halts. -/
theorem highOpcodesHalt : Obligations.HighOpcodesHalt :=
  ⟨fun _ _ rest hb => decode_unrecHigh (opcodeField_of_high hb) rest,
    fun low s => ⟨rfl, _, exec_unrecHigh s low, rfl, rfl, rfl, onlyRun_afterDecode_halt s _⟩⟩

end Sys2Proof.Machine
end

section
/-! The loader's acceptance (spec/70_reset_and_hazards.md R193), the start of the machine with an image (R191), and a program that
runs past its image. -/

namespace Sys2Proof.Machine

/-! ### The images the loader accepts -/

theorem inRange_of_unpackGroup {c1 c2 c3 : Nat} {p : Byte × Byte} (h : unpackGroup c1 c2 c3 = some p) :
    40 ≤ c1 ∧ c1 ≤ 103 ∧ 40 ≤ c2 ∧ c2 ≤ 71 ∧ 40 ≤ c3 ∧ c3 ≤ 71 := by
  unfold unpackGroup at h
  split at h
  · assumption
  · cases h

theorem CharsInRange.cons {c1 c2 c3 : Nat} {rest : List Nat}
    (h : 40 ≤ c1 ∧ c1 ≤ 103 ∧ 40 ≤ c2 ∧ c2 ≤ 71 ∧ 40 ≤ c3 ∧ c3 ≤ 71) (hrest : CharsInRange rest) :
    CharsInRange (c1 :: c2 :: c3 :: rest) := by
  obtain ⟨low1, high1, low2, high2, low3, high3⟩ := h
  intro k x hx
  match k, hx with
  | 0, hx => cases hx; exact ⟨low1, high1⟩
  | 1, hx => cases hx; exact ⟨low2, high2⟩
  | 2, hx => cases hx; exact ⟨low3, high3⟩
  | k + 3, hx => simpa [Nat.add_mod_right] using hrest k x hx

/-- An image that unpacks is one of whole groups, in range. -/
theorem wholeGroups_of_unpack (image : List Nat) {bytes : List Byte} (h : unpack image = some bytes) :
    image.length % 3 = 0 ∧ CharsInRange image := by
  match image, h with
  | [], _ => exact ⟨rfl, fun k x hx => by simp at hx⟩
  | [_], h => cases h
  | [_, _], h => cases h
  | c1 :: c2 :: c3 :: rest, h =>
    unfold unpack at h
    split at h
    · next hgroup hunpack =>
      obtain ⟨hlen, hrange⟩ := wholeGroups_of_unpack rest hunpack
      exact ⟨by simp only [List.length_cons]; omega, .cons (inRange_of_unpackGroup hgroup) hrange⟩
    · cases h

/-- An unpacked image has two bytes for each group of three characters. -/
theorem length_of_unpack {image : List Nat} {bytes : List Byte} (h : unpack image = some bytes) :
    bytes.length = 2 * image.length / 3 := by
  obtain ⟨hlen, hrange⟩ := wholeGroups_of_unpack image h
  obtain ⟨bytes', h', hlength, -⟩ := exists_unpack_eq_some image hlen hrange
  cases h.symm.trans h'
  exact hlength

theorem loadImage_eq_some_iff {c : Config} {image : List Nat} {bytes : List Byte} :
    loadImage c image = some bytes ↔ unpack image = some bytes ∧ bytes.length ≤ c.memSize := by
  unfold loadImage
  cases unpack image with
  | none => simp
  | some bytes' =>
    simp only [Option.ite_none_right_eq_some, Option.some.injEq]
    constructor
    · rintro ⟨hfit, rfl⟩; exact ⟨rfl, hfit⟩
    · rintro ⟨rfl, hfit⟩; exact ⟨hfit, rfl⟩

/-- Settles O4: the loader accepts what unpacks and fits, and an image unpacks exactly where its groups are whole and in range. -/
theorem loaderAcceptsExactly : Obligations.LoaderAcceptsExactly := by
  intro c image
  rw [State.boot, Option.isSome_map, Option.isSome_iff_exists]
  constructor
  · rintro ⟨bytes, h⟩
    obtain ⟨hunpack, hfit⟩ := loadImage_eq_some_iff.mp h
    obtain ⟨hlen, hrange⟩ := wholeGroups_of_unpack image hunpack
    exact ⟨hlen, hrange, length_of_unpack hunpack ▸ hfit⟩
  · rintro ⟨hlen, hrange, hfit⟩
    obtain ⟨bytes, hunpack, hlength, -⟩ := exists_unpack_eq_some image hlen hrange
    exact ⟨bytes, loadImage_eq_some_iff.mpr ⟨hunpack, hlength ▸ hfit⟩⟩

/-! ### The start -/

/-- The state in which the machine starts with these bytes loaded (R191). -/
def bootState (c : Config) (bytes : List Byte) : State :=
  { State.reset with cfg := c, mem := Memory.writeBytes [] 0 bytes }

theorem boot_of_loadImage {c : Config} {image : List Nat} {bytes : List Byte} (h : loadImage c image = some bytes) :
    State.boot c image = some (bootState c bytes) := by
  rw [State.boot, h]; rfl

theorem read_bootState (c : Config) (bytes : List Byte) (a : Nat) : (bootState c bytes).mem.read a = bytes.getD a 0 := by
  rw [bootState, Memory.read_writeBytes Memory.wf_nil, if_pos (Nat.zero_le a), Nat.sub_zero, Memory.read_nil,
    List.getD_eq_getElem?_getD]

theorem reachable_empty : Flags.empty.reachable = true := by decide

theorem inv_bootState {c : Config} {bytes : List Byte} (hlegal : c.Legal) (hfit : bytes.length ≤ c.memSize) :
    (bootState c bytes).Inv :=
  ⟨hlegal, Memory.wf_writeBytes 0 bytes Memory.wf_nil, Memory.below_writeBytes bytes rfl (by rwa [Nat.zero_add]),
    reachable_empty, fun _ => rfl,
    fun _ => State.reg_reset spIndex⟩

/-- Settles O1: the fields of the state after reset. -/
theorem resetValues : Obligations.ResetValues :=
  ⟨State.reg_reset, rfl, rfl, Memory.read_nil, rfl, rfl, rfl, rfl⟩

/-- Settles O2: the start is the state after reset with the image's bytes written from address 0 on. -/
theorem bootLoadsTheImage : Obligations.BootLoadsTheImage := by
  refine ⟨fun c image bytes h => ?_, fun c image h => by rw [State.boot, h]; rfl⟩
  exact ⟨_, boot_of_loadImage h, rfl, State.reg_reset, rfl, rfl, read_bootState c bytes, rfl, rfl, rfl, rfl⟩

/-- Settles O5: each part of the invariant holds of the reset values, the parameters being legal. -/
theorem resetMeetsInvariant : Obligations.ResetMeetsInvariant :=
  ⟨by decide, rfl, rfl, reachable_empty, fun _ => rfl, fun _ => State.reg_reset spIndex⟩

/-- Settles O6: writing bytes that fit keeps memory canonical and inside MEM_SIZE. -/
theorem bootMeetsInvariant : Obligations.BootMeetsInvariant := by
  intro c image s hlegal hboot
  cases hload : loadImage c image with
  | none => rw [State.boot, hload] at hboot; cases hboot
  | some bytes =>
    cases hboot.symm.trans (boot_of_loadImage hload)
    exact inv_bootState hlegal (loadImage_eq_some_iff.mp hload).2

/-- Settles O57: such a byte is 0, and the instruction of the byte 0 halts. -/
theorem runningPastTheImageHalts : Obligations.RunningPastTheImageHalts := by
  rintro c image bytes s t hload hboot ⟨⟨-, hsize, -⟩, -, -, -, hexit, -⟩ rfl hrun hpast hin hsame
  cases hboot.symm.trans (boot_of_loadImage hload)
  have hlegal : t.legal t.pc 1 = true := by
    rw [State.legal_iff_toNat]
    omega
  have hzero : t.mem.read t.pc.toNat = 0 := by
    rw [hsame, read_bootState, List.getD_eq_getElem?_getD, List.getElem?_eq_none hpast, Option.getD_none]
  have hbytes : BytesAtPc t [0] := by
    intro k hk
    obtain rfl : k = 0 := by simpa using hk
    simpa [hzero] using hlegal
  have hstep := stepRunsTheDecodedInstruction t [0] .unrecZero hrun hbytes (decode_of_opcodeField_eq_zero (by decide) _ [])
  refine ⟨_, hstep.1.trans (exec_unrecZero t), rfl, ?_, rfl, onlyRun_afterDecode_halt t _⟩
  exact hexit (by simp [hrun])

end Sys2Proof.Machine
end

section
/-! The loads and stores (spec/40_move_load_store.md, spec/20_memory.md sections 2 and 3): what each does where its
access is legal and where it is not. -/

namespace Sys2Proof.Machine

theorem State.legal_of_toInt {s : State} {a : Word} {n : Nat} (h0 : 0 ≤ a.toInt) (h : a.toInt + n ≤ s.cfg.memSize) :
    s.legal a n = true :=
  (s.legal_iff a n).mpr ⟨h0, h⟩

theorem toNat_zext8 (b : Byte) : (zext8 b).toNat = b.toNat := by
  rw [zext8, BitVec.toNat_setWidth]
  exact Nat.mod_eq_of_lt (by omega)

/-- A word in memory is the little-endian number of its bytes (R42). -/
theorem Memory.toNat_readWord (m : Memory) (a : Nat) : (m.readWord a).toNat =
    (m.read a).toNat + (m.read (a + 1)).toNat * 2 ^ 8 + (m.read (a + 2)).toNat * 2 ^ 16 + (m.read (a + 3)).toNat * 2 ^ 24 :=
  toNat_append_bytes _ _ _ _

section
variable {s : State} {rd : RegIx} {v base off : Src}

theorem exec_ldb_of_legal (h : s.legal (s.effectiveAddress base off) 1 = true) : exec (.ldb rd base off) s =
    .next ((s.afterDecode (.ldb rd base off)).setReg rd (zext8 (s.mem.read (s.effectiveAddress base off).toNat))) := by
  rw [exec_ldb, State.loadByte_ok_iff.mpr ⟨h, rfl⟩]
  rfl

theorem exec_ldw_of_legal (h : s.legal (s.effectiveAddress base off) 4 = true) : exec (.ldw rd base off) s =
    .next ((s.afterDecode (.ldw rd base off)).setReg rd (s.mem.readWord (s.effectiveAddress base off).toNat)) := by
  rw [exec_ldw, State.loadWord_ok_iff.mpr ⟨h, rfl⟩]
  rfl

theorem exec_stb_of_legal (h : s.legal (s.effectiveAddress base off) 1 = true) : exec (.stb v base off) s =
    .next ((s.afterDecode (.stb v base off)).setMem
      (s.mem.write (s.effectiveAddress base off).toNat (wordByte (s.value v) 0))) := by
  have hstore : (s.afterDecode (.stb v base off)).storeByte (s.effectiveAddress base off) (wordByte (s.value v) 0) = .ok _ :=
    State.storeByte_ok_iff.mpr ⟨h, rfl⟩
  rw [exec_stb, hstore]
  rfl

theorem exec_stw_of_legal (h : s.legal (s.effectiveAddress base off) 4 = true) : exec (.stw v base off) s =
    .next ((s.afterDecode (.stw v base off)).setMem
      (s.mem.writeWord (s.effectiveAddress base off).toNat (s.value v))) := by
  have hstore : (s.afterDecode (.stw v base off)).storeWord (s.effectiveAddress base off) (s.value v) = .ok _ :=
    State.storeWord_ok_iff.mpr ⟨h, rfl⟩
  rw [exec_stw, hstore]
  rfl

theorem exec_ldb_of_not_legal (h : s.legal (s.effectiveAddress base off) 1 = false) : exec (.ldb rd base off) s =
    .next (s.setRun (.faulted ⟨.loadRange, s.effectiveAddress base off⟩)) := by
  rw [exec_ldb, State.loadByte_error_iff.mpr ⟨h, rfl⟩]
  rfl

theorem exec_ldw_of_not_legal (h : s.legal (s.effectiveAddress base off) 4 = false) : exec (.ldw rd base off) s =
    .next (s.setRun (.faulted ⟨.loadRange, s.effectiveAddress base off⟩)) := by
  rw [exec_ldw, State.loadWord_error_iff.mpr ⟨h, rfl⟩]
  rfl

theorem exec_stb_of_not_legal (h : s.legal (s.effectiveAddress base off) 1 = false) : exec (.stb v base off) s =
    .next (s.setRun (.faulted ⟨.storeRange, s.effectiveAddress base off⟩)) := by
  have hstore : (s.afterDecode (.stb v base off)).storeByte (s.effectiveAddress base off) (wordByte (s.value v) 0) = .error _ :=
    State.storeByte_error_iff.mpr ⟨h, rfl⟩
  rw [exec_stb, hstore]
  rfl

theorem exec_stw_of_not_legal (h : s.legal (s.effectiveAddress base off) 4 = false) : exec (.stw v base off) s =
    .next (s.setRun (.faulted ⟨.storeRange, s.effectiveAddress base off⟩)) := by
  have hstore : (s.afterDecode (.stw v base off)).storeWord (s.effectiveAddress base off) (s.value v) = .error _ :=
    State.storeWord_error_iff.mpr ⟨h, rfl⟩
  rw [exec_stw, hstore]
  rfl

end

/-- Settles O27: a legal load is one register write of what memory holds there. -/
theorem loadsReadMemory : Obligations.LoadsReadMemory := by
  rintro rd base off s ea rfl h0
  refine ⟨fun h1 => ?_, fun h4 => ?_⟩
  · refine ⟨_, exec_ldb_of_legal (State.legal_of_toInt h0 h1), ?_, rfl, onlyRegs_afterDecode_setReg s _ rd _⟩
    rw [State.reg_setReg, if_pos rfl, toNat_zext8]
    rfl
  · refine ⟨_, exec_ldw_of_legal (State.legal_of_toInt h0 h4), ?_, rfl, onlyRegs_afterDecode_setReg s _ rd _⟩
    rw [State.reg_setReg, if_pos rfl, Memory.toNat_readWord]
    rfl

/-- Settles O28: a legal store completes, and what a completed store leaves in memory is the bytes of its word. -/
theorem storesWriteMemory : Obligations.StoresWriteMemory := by
  rintro v base off s ea rfl hwf h0
  refine ⟨fun h1 => ?_, fun h4 => ?_⟩
  · have hlegal : s.legal (s.effectiveAddress base off) 1 = true := State.legal_of_toInt h0 h1
    have hc := Completed.stb (v := v) hlegal
    refine ⟨_, exec_stb_of_legal hlegal, ?_, rfl, hc.onlyRegsAndBytes rfl rfl⟩
    have hread := hc.read_stored hwf rfl rfl (k := 0) (by decide)
    rw [Nat.add_zero] at hread
    exact (congrArg BitVec.toNat hread).trans (by simp [toNat_wordByte])
  · have hlegal : s.legal (s.effectiveAddress base off) 4 = true := State.legal_of_toInt h0 h4
    have hc := Completed.stw (v := v) hlegal
    refine ⟨_, exec_stw_of_legal hlegal, fun k hk => ?_, rfl, hc.onlyRegsAndBytes rfl rfl⟩
    exact (congrArg BitVec.toNat (hc.read_stored hwf rfl rfl hk)).trans (toNat_wordByte _ k)

/-- Settles O29: an access that is not legal raises the fault of its direction. -/
theorem accessesOutsideMemoryFault : Obligations.AccessesOutsideMemoryFault := by
  rintro rd v base off s ea rfl
  refine ⟨fun h1 => ?_, fun h4 => ?_⟩
  · have hlegal : s.legal (s.effectiveAddress base off) 1 = false := State.legal_eq_false_iff.mpr h1
    exact ⟨exec_ldb_of_not_legal hlegal, exec_stb_of_not_legal hlegal⟩
  · have hlegal : s.legal (s.effectiveAddress base off) 4 = false := State.legal_eq_false_iff.mpr h4
    exact ⟨exec_ldw_of_not_legal hlegal, exec_stw_of_not_legal hlegal⟩

/-- Settles O30: the store checked all four bytes, so the loads inside them are legal, and they read what the store left. -/
theorem loadsSeeTheStoredWord : Obligations.LoadsSeeTheStoredWord := by
  rintro v base off s t ⟨-, hsize, -⟩ - hwf hexec ht
  have hc := completed_of_running hexec ht
  have hlegal : s.legal (s.effectiveAddress base off) 4 = true := hc.legal _ _ rfl
  refine ⟨fun rd b o hsame => ?_, fun rd b o k hk hsame => ?_⟩
  · have hea : t.effectiveAddress b o = s.effectiveAddress base off := hsame
    refine ⟨_, exec_ldw_of_legal (by rw [hea, State.legal_congr hc.cfg, hlegal]), ?_⟩
    rw [State.reg_setReg, if_pos rfl, hea]
    exact hc.readWord_stored hwf rfl rfl
  · have hea : t.effectiveAddress b o = s.effectiveAddress base off + BitVec.ofNat 32 k := hsame
    obtain ⟨hlow, hhigh⟩ := (State.legal_iff_toNat s _ 4).mp hlegal
    have hsum : (s.effectiveAddress base off + BitVec.ofNat 32 k).toNat = (s.effectiveAddress base off).toNat + k := by
      rw [BitVec.toNat_add, BitVec.toNat_ofNat]
      omega
    have hlegal' : t.legal (t.effectiveAddress b o) 1 = true := by
      rw [hea, State.legal_congr hc.cfg, State.legal_iff_toNat, hsum]
      omega
    refine ⟨_, exec_ldb_of_legal hlegal', ?_⟩
    rw [State.reg_setReg, if_pos rfl, toNat_zext8, hea, hsum]
    exact (congrArg BitVec.toNat (hc.read_stored hwf rfl rfl hk)).trans (toNat_wordByte _ k)

end Sys2Proof.Machine
end

section
/-! The stack operations (spec/43_stack.md, spec/41_control.md sections 2 and 4, spec/70_reset_and_hazards.md section 3): what
PUSH, JSR, POP and RTS do where the four bytes are in memory, where they are not, and where R255 is still 0. -/

namespace Sys2Proof.Machine

section
variable {s : State}

theorem exec_push_of_legal (h : s.legal s.pushAddress 4 = true) (v : Src) : exec (.push v) s =
    .next (((s.afterDecode (.push v)).setMem (s.mem.writeWord s.pushAddress.toNat (s.value v))).setReg spIndex
      s.pushAddress) := by
  have hpush : (s.afterDecode (.push v)).pushWord (s.value v) = .ok _ := State.pushWord_ok_iff.mpr ⟨h, rfl⟩
  rw [exec_push, hpush]
  rfl

theorem exec_jsr_of_legal (h : s.legal s.pushAddress 4 = true) (addr : Src) : exec (.jsr addr) s =
    .next (((s.setPc (s.value addr)).setMem (s.mem.writeWord s.pushAddress.toNat (s.afterDecode (.jsr addr)).pc)).setReg
      spIndex s.pushAddress) := by
  have hpush : (s.afterDecode (.jsr addr)).pushWord (s.afterDecode (.jsr addr)).pc = .ok _ :=
    State.pushWord_ok_iff.mpr ⟨h, rfl⟩
  rw [exec_jsr, hpush]
  rfl

theorem exec_push_of_not_legal (h : s.legal s.pushAddress 4 = false) (v : Src) :
    exec (.push v) s = .next (s.setRun (.faulted ⟨.storeRange, s.pushAddress⟩)) := by
  have hpush : (s.afterDecode (.push v)).pushWord (s.value v) = .error _ := State.pushWord_error_iff.mpr ⟨h, rfl⟩
  rw [exec_push, hpush]
  rfl

theorem exec_jsr_of_not_legal (h : s.legal s.pushAddress 4 = false) (addr : Src) :
    exec (.jsr addr) s = .next (s.setRun (.faulted ⟨.storeRange, s.pushAddress⟩)) := by
  have hpush : (s.afterDecode (.jsr addr)).pushWord (s.afterDecode (.jsr addr)).pc = .error _ :=
    State.pushWord_error_iff.mpr ⟨h, rfl⟩
  rw [exec_jsr, hpush]
  rfl

theorem exec_pop_of_topWord {w : Word} (h : s.topWord = .ok w) (rd : RegIx) :
    exec (.pop rd) s = .next ((s.afterDecode (.pop rd)).setReg rd w).dropWord := by
  rw [exec_pop, h]
  rfl

theorem exec_rts_of_topWord {w : Word} (h : s.topWord = .ok w) :
    exec .rts s = .next ((s.afterDecode .rts).dropWord.setPc w) := by
  rw [exec_rts, h]
  rfl

theorem exec_pop_of_topWord_error {r : FaultRecord} (h : s.topWord = .error r) (rd : RegIx) :
    exec (.pop rd) s = .next (s.setRun (.faulted r)) := by
  rw [exec_pop, h]
  rfl

theorem exec_rts_of_topWord_error {r : FaultRecord} (h : s.topWord = .error r) :
    exec .rts s = .next (s.setRun (.faulted r)) := by
  rw [exec_rts, h]
  rfl

/-- A word is popped where its bytes are in memory and R255 was written, or is not 0. -/
theorem State.topWord_of_legal (hset : s.spWritten = true ∨ s.reg spIndex ≠ 0) (h : s.legal (s.reg spIndex) 4 = true) :
    s.topWord = .ok (s.mem.readWord (s.reg spIndex).toNat) := by
  refine State.topWord_ok_iff.mpr ⟨?_, h, rfl⟩
  obtain hw | hne := hset
  · exact State.spStillZero_of_spWritten hw
  · exact State.spStillZero_of_ne hne

/-- What RTS leaves: the pc is the word it popped. -/
theorem exists_rts_of_topWord {w : Word} (h : s.topWord = .ok w) :
    ∃ t, exec .rts s = .next t ∧ t.pc = w ∧ t.reg 255 = s.reg 255 + 4 ∧ OnlyRegs [255] s t :=
  ⟨_, exec_rts_of_topWord h, rfl, by simp [spIndex], (Completed.rts s w).onlyRegs rfl rfl⟩

/-- What POP leaves: the register has the word it popped, but for POP R255 (R126). -/
theorem exists_pop_of_topWord {w : Word} (h : s.topWord = .ok w) (rd : RegIx) :
    ∃ t, exec (.pop rd) s = .next t ∧ (rd ≠ 255 → t.reg rd = w ∧ t.reg 255 = s.reg 255 + 4) ∧
      (rd = 255 → t.reg 255 = w + 4) ∧ t.pc = s.pc + 2 ∧ OnlyRegs [rd, 255] s t := by
  refine ⟨_, exec_pop_of_topWord h rd, fun hne => ?_, ?_, rfl, (Completed.pop s rd w).onlyRegs rfl rfl⟩
  · have hne' : spIndex ≠ rd := Ne.symm hne
    refine ⟨by simp [hne'], ?_⟩
    change State.reg _ spIndex = s.reg spIndex + 4
    simp [hne'.symm]
  · rintro rfl
    simp [spIndex]

end

/-- Settles O32: a legal call is the push of the address after it, the target resolved before. -/
theorem jsrPushesTheReturnAddress : Obligations.JsrPushesTheReturnAddress := by
  rintro addr s sp rfl hwf h0 hfit
  have hlegal : s.legal s.pushAddress 4 = true := State.legal_of_toInt h0 hfit
  have hc : Completed (.jsr addr) s _ := .push rfl rfl rfl rfl hlegal (s.value addr)
  exact ⟨_, exec_jsr_of_legal hlegal addr, rfl, by simp [spIndex, State.pushAddress], hc.readWord_stored hwf rfl rfl,
    hc.onlyRegsAndBytes rfl rfl⟩

/-- Settles O38: a legal push stores the value its operand had before. -/
theorem pushStoresItsOperand : Obligations.PushStoresItsOperand := by
  rintro v s sp rfl hwf h0 hfit
  have hlegal : s.legal s.pushAddress 4 = true := State.legal_of_toInt h0 hfit
  have hc : Completed (.push v) s _ := .push rfl rfl rfl rfl hlegal (s.afterDecode (.push v)).pc
  exact ⟨_, exec_push_of_legal hlegal v, by simp [spIndex, State.pushAddress], hc.readWord_stored hwf rfl rfl, rfl,
    hc.onlyRegsAndBytes rfl rfl⟩

/-- Settles O33: the word on top of the stack is the little-endian number of its four bytes. -/
theorem rtsPopsThePc : Obligations.RtsPopsThePc := by
  rintro s sp rfl hset h0 hfit
  have htop := State.topWord_of_legal hset (State.legal_of_toInt h0 hfit)
  obtain ⟨t, hexec, hpc, hsp, hframe⟩ := exists_rts_of_topWord htop
  exact ⟨t, hexec, hsp, hframe, by rw [hpc]; exact Memory.toNat_readWord _ _⟩

/-- Settles O39: as O33, and the new R255 is read after the destination was written. -/
theorem popLoadsTheTop : Obligations.PopLoadsTheTop := by
  rintro rd s sp w rfl hset h0 hfit hw
  have htop := State.topWord_of_legal hset (State.legal_of_toInt h0 hfit)
  have hword : s.mem.readWord (s.reg spIndex).toNat = w :=
    BitVec.eq_of_toNat_eq ((Memory.toNat_readWord _ _).trans hw.symm)
  rw [hword] at htop
  exact exists_pop_of_topWord htop rd

/-- Settles O35: the call left the return address at R255 and R255 written, so the return pops that address. -/
theorem returnResumesAfterTheCall : Obligations.ReturnResumesAfterTheCall := by
  intro addr s t u _ hwf hexec ht hcfg hsp hwritten hsame
  have hc := completed_of_running hexec ht
  have hlegal : s.legal s.pushAddress 4 = true := hc.legal _ _ rfl
  have htsp : t.reg 255 = s.pushAddress := by
    cases hexec.symm.trans (exec_jsr_of_legal hlegal addr)
    simp [spIndex]
  have husp : u.reg spIndex = s.pushAddress := hsp.trans htsp
  have hmark : u.spWritten = true := by rw [hwritten, hc.spWritten]; simp [writesRegs]
  have hword : u.mem.readWord (u.reg spIndex).toNat = s.pc + BitVec.ofNat 32 (Instr.jsr addr).length := by
    rw [husp, ← hc.readWord_stored hwf rfl rfl]
    refine Memory.readWord_congr fun c hlow hhigh => ?_
    obtain ⟨k, rfl⟩ := Nat.exists_eq_add_of_le hlow
    rw [← htsp]
    exact hsame k (by omega)
  have htop := State.topWord_of_legal (.inl hmark)
    (by rw [husp, State.legal_congr (hcfg.trans hc.cfg), hlegal] : u.legal (u.reg spIndex) 4 = true)
  obtain ⟨r, hrts, hpc, hreg, -⟩ := exists_rts_of_topWord htop
  refine ⟨r, hrts, hpc.trans hword, ?_⟩
  rw [hreg, hsp, htsp, State.pushAddress]
  exact BitVec.sub_add_cancel _ _

/-- Settles O40: neither the push nor the top word is legal there. -/
theorem stackAccessesOutsideMemoryFault : Obligations.StackAccessesOutsideMemoryFault := by
  intro rd v s
  refine ⟨fun hout => ?_, fun hout => ?_⟩
  · have hlegal : s.legal s.pushAddress 4 = false := State.legal_eq_false_iff.mpr hout
    exact ⟨exec_push_of_not_legal hlegal v, exec_jsr_of_not_legal hlegal v⟩
  · have htop : s.topWord = .error ⟨.loadRange, s.reg spIndex⟩ :=
      State.topWord_error_iff.mpr ⟨.inr (State.legal_eq_false_iff.mpr hout), rfl⟩
    exact ⟨exec_pop_of_topWord_error htop rd, exec_rts_of_topWord_error htop⟩

/-! ### R255 still 0 -/

theorem State.pushAddress_of_zero {s : State} (h : s.reg spIndex = 0) : s.pushAddress = 0xFFFFFFFC := by
  rw [State.pushAddress, h]; rfl

/-- Below address 0 there is no memory. -/
theorem State.not_legal_of_zero {s : State} (h : s.reg spIndex = 0) : s.legal s.pushAddress 4 = false := by
  rw [State.pushAddress_of_zero h, State.legal_eq_false_iff]
  rintro ⟨h0, -⟩
  exact absurd h0 (by decide)

theorem State.topWord_of_still_zero {s : State} (h : s.reg spIndex = 0) (hunwritten : s.spWritten = false) :
    s.topWord = .error ⟨.loadRange, 0⟩ :=
  State.topWord_error_iff.mpr ⟨.inl (State.spStillZero_iff.mpr ⟨hunwritten, h⟩), by rw [h]⟩

theorem State.topWord_of_zero {s : State} (h : s.reg spIndex = 0) (hwritten : s.spWritten = true) (hcfg : s.cfg.Legal) :
    s.topWord = .ok (s.mem.readWord 0) := by
  obtain ⟨hsize, -, -⟩ := hcfg
  have hlegal : s.legal (s.reg spIndex) 4 = true := by
    rw [h, State.legal_iff_toNat]
    exact ⟨by decide, (show 0 + 4 ≤ s.cfg.memSize by omega)⟩
  have htop := State.topWord_of_legal (.inl hwritten) hlegal
  rwa [h] at htop

/-- Settles O56: -4 is no address, and the top word at 0 is refused until R255 is written. -/
theorem stackWithR255StillZero : Obligations.StackWithR255StillZero := by
  intro s hzero
  have hpush := State.not_legal_of_zero hzero
  have haddr := State.pushAddress_of_zero hzero
  refine ⟨fun v => ?_, fun v => ?_, fun hunwritten => ?_, fun hwritten hcfg => ?_⟩
  · rw [exec_push_of_not_legal hpush, haddr]
  · rw [exec_jsr_of_not_legal hpush, haddr]
  · have htop := State.topWord_of_still_zero hzero hunwritten
    exact ⟨exec_pop_of_topWord_error htop, exec_rts_of_topWord_error htop⟩
  · have htop := State.topWord_of_zero hzero hwritten hcfg
    have hfour : s.reg 255 + 4 = 4 := by rw [hzero]; rfl
    refine ⟨fun rd => ?_, hfour ▸ exists_rts_of_topWord htop⟩
    obtain ⟨t, hexec, hne, heq, hpc, hframe⟩ := exists_pop_of_topWord htop rd
    exact ⟨t, hexec, fun h => (hne h).imp_right fun hsp => hsp.trans hfour, heq, hpc, hframe⟩

/-- Settles O59: the invariant keeps R255 at 0 until it is written, and then each of the four faults. -/
theorem stackUseBeforeR255IsSetFaults : Obligations.StackUseBeforeR255IsSetFaults := by
  rintro s ⟨-, -, -, -, -, hsp⟩ hunwritten i hi
  obtain ⟨hpush, hjsr, hstill, -⟩ := stackWithR255StillZero s (hsp hunwritten)
  obtain ⟨hpop, hrts⟩ := hstill hunwritten
  obtain ⟨v, rfl | rfl⟩ | ⟨rd, rfl⟩ | rfl := hi
  · exact ⟨_, hpush v, .inl rfl⟩
  · exact ⟨_, hjsr v, .inl rfl⟩
  · exact ⟨_, hpop rd, .inr rfl⟩
  · exact ⟨_, hrts, .inr rfl⟩

end Sys2Proof.Machine
end

section
/-! CMP and the six conditional branches (spec/42_compare.md, spec/41_control.md section 3). -/

namespace Sys2Proof.Machine

/-- The six branches, each with what it asks of FLAGS (R105 to R110). -/
def branchTable : List ((Src → Instr) × (Flags → Bool)) := [
  (Instr.beq, fun fl => fl.equal), (Instr.bne, fun fl => !fl.equal), (Instr.blt, fun fl => fl.less),
  (Instr.ble, fun fl => fl.less || fl.equal), (Instr.bgt, fun fl => fl.greater),
  (Instr.bge, fun fl => fl.greater || fl.equal)]

/-- An instruction that branches, with its condition, is complete once the pc is set. -/
theorem exists_next_of_branch {i : Instr} {s : State} {addr : Src} {taken : Bool}
    (hexec : exec i s = .next (s.branch i addr taken)) (hi : writesRegsAndMem i = true) (hstores : stores s i = none)
    (hregs : writesRegs i = []) :
    ∃ t, exec i s = .next t ∧ OnlyRegs [] s t ∧
      t.pc = if taken then s.value addr else s.pc + BitVec.ofNat 32 i.length := by
  rw [State.branch_eq] at hexec
  have hc : Completed i s _ := .setPc hi hstores hregs (if taken then s.value addr else s.pc + BitVec.ofNat 32 i.length)
  exact ⟨_, hexec, hregs ▸ hc.onlyRegs hi hstores, rfl⟩

theorem exists_next_of_mem_branchTable {f : Src → Instr} {taken : Flags → Bool} (h : (f, taken) ∈ branchTable)
    (addr : Src) (s : State) :
    ∃ t, exec (f addr) s = .next t ∧ OnlyRegs [] s t ∧
      t.pc = if taken s.flags then s.value addr else s.pc + BitVec.ofNat 32 (f addr).length := by
  simp only [branchTable, List.mem_cons, Prod.mk.injEq, List.not_mem_nil, or_false] at h
  obtain ⟨rfl, rfl⟩ | ⟨rfl, rfl⟩ | ⟨rfl, rfl⟩ | ⟨rfl, rfl⟩ | ⟨rfl, rfl⟩ | ⟨rfl, rfl⟩ := h
  · exact exists_next_of_branch (exec_beq s addr) rfl rfl rfl
  · exact exists_next_of_branch (exec_bne s addr) rfl rfl rfl
  · exact exists_next_of_branch (exec_blt s addr) rfl rfl rfl
  · exact exists_next_of_branch (exec_ble s addr) rfl rfl rfl
  · exact exists_next_of_branch (exec_bgt s addr) rfl rfl rfl
  · exact exists_next_of_branch (exec_bge s addr) rfl rfl rfl

/-- Settles O34: the table of the branches. -/
theorem branchesTestTheFlags : Obligations.BranchesTestTheFlags :=
  fun _ _ h addr s => exists_next_of_mem_branchTable h addr s

/-! ### The flags of a comparison -/

theorem compareFlags_equal_iff (a b : Word) : (compareFlags a b).equal = true ↔ a.toInt = b.toInt := by
  unfold compareFlags
  split
  · simp [*]
  · split <;> simp [*]

theorem compareFlags_less_iff (a b : Word) : (compareFlags a b).less = true ↔ a.toInt < b.toInt := by
  unfold compareFlags
  split
  · simp [*]
  · split <;> simp [*]

theorem compareFlags_greater_iff (a b : Word) : (compareFlags a b).greater = true ↔ b.toInt < a.toInt := by
  unfold compareFlags
  split
  · simp [*]
  · split
    · simp only [Bool.false_eq_true, false_iff]; omega
    · simp only [true_iff]; omega

/-- Settles O36: CMP is the write of the comparison's flags after the pc has advanced. -/
theorem cmpSetsOneFlag : Obligations.CmpSetsOneFlag := by
  intro a b s
  have hc := Completed.cmp s a b
  exact ⟨_, exec_cmp s a b, compareFlags_equal_iff _ _, compareFlags_less_iff _ _, compareFlags_greater_iff _ _, rfl,
    hc.regsKept, hc.memSame rfl, rfl, rfl, rfl, rfl, rfl⟩

/-- What a branch asks of the flags of a comparison is its signed comparison. -/
theorem exists_mem_branchTable {x y : Word} {f : Src → Instr} {taken : Prop}
    (h : (f = .beq ∧ taken = (x.toInt = y.toInt)) ∨ (f = .bne ∧ taken = (x.toInt ≠ y.toInt)) ∨
      (f = .blt ∧ taken = (x.toInt < y.toInt)) ∨ (f = .ble ∧ taken = (x.toInt ≤ y.toInt)) ∨
      (f = .bgt ∧ taken = (y.toInt < x.toInt)) ∨ (f = .bge ∧ taken = (y.toInt ≤ x.toInt))) :
    ∃ test, (f, test) ∈ branchTable ∧ (test (compareFlags x y) = true ↔ taken) := by
  obtain ⟨rfl, rfl⟩ | ⟨rfl, rfl⟩ | ⟨rfl, rfl⟩ | ⟨rfl, rfl⟩ | ⟨rfl, rfl⟩ | ⟨rfl, rfl⟩ := h
  · exact ⟨fun fl => fl.equal, by simp [branchTable], compareFlags_equal_iff x y⟩
  · refine ⟨fun fl => !fl.equal, by simp [branchTable], ?_⟩
    rw [Bool.not_eq_true', ← Bool.not_eq_true, compareFlags_equal_iff]
  · exact ⟨fun fl => fl.less, by simp [branchTable], compareFlags_less_iff x y⟩
  · refine ⟨fun fl => fl.less || fl.equal, by simp [branchTable], ?_⟩
    rw [Bool.or_eq_true, compareFlags_less_iff, compareFlags_equal_iff]
    omega
  · exact ⟨fun fl => fl.greater, by simp [branchTable], compareFlags_greater_iff x y⟩
  · refine ⟨fun fl => fl.greater || fl.equal, by simp [branchTable], ?_⟩
    rw [Bool.or_eq_true, compareFlags_greater_iff, compareFlags_equal_iff]
    omega

/-- Settles O37: a branch tests the flags that CMP left, and they are those of the comparison. -/
theorem branchesAfterCmpFollowTheComparison : Obligations.BranchesAfterCmpFollowTheComparison := by
  intro a b addr s t u hexec hflags f taken h
  cases hexec.symm.trans (exec_cmp s a b)
  obtain ⟨test, hmem, htest⟩ := exists_mem_branchTable h
  obtain ⟨r, hnext, -, hpc⟩ := exists_next_of_mem_branchTable hmem addr u
  rw [hflags, State.flags_setFlags] at hpc
  exact ⟨r, hnext, fun ht => by rw [hpc, if_pos (htest.mpr ht)], fun ht => by rw [hpc, if_neg (mt htest.mp ht)]⟩

end Sys2Proof.Machine
end

section
/-! The arithmetic and the shifts (spec/44_alu.md sections 2 and 4): the exact results and where they fit in a word, and the
operands that raise a fault. -/

namespace Sys2Proof.Machine

/-! ### ADD, SUB and MUL -/

/-- Each of the three is the common form with the exact result, reduced into a word. -/
theorem exec_arith_eq_alu {f : RegIx → Src → Instr} {op : Int → Int → Int} (h : (f, op) ∈ [
      (Instr.add, fun a b => a + b), (Instr.sub, fun a b => a - b), (Instr.mul, fun a b => a * b)])
    (rd : RegIx) (v : Src) (s : State) :
    ∃ w, exec (f rd v) s = s.alu (f rd v) rd (.ok w) ∧
      w.toInt = (op (s.reg rd).toInt (s.value v).toInt).bmod (2 ^ 32) := by
  simp only [List.mem_cons, Prod.mk.injEq, List.not_mem_nil, or_false] at h
  obtain ⟨rfl, rfl⟩ | ⟨rfl, rfl⟩ | ⟨rfl, rfl⟩ := h
  · exact ⟨_, exec_add s rd v, BitVec.toInt_add _ _⟩
  · exact ⟨_, exec_sub s rd v, BitVec.toInt_sub⟩
  · exact ⟨_, exec_mul s rd v, BitVec.toInt_mul _ _⟩

/-- Settles O43: the common form with a result that wraps as BitVec's does. -/
theorem addSubMulWrap : Obligations.AddSubMulWrap := by
  intro f op h rd v s
  obtain ⟨w, hexec, hw⟩ := exec_arith_eq_alu h rd v s
  obtain ⟨t, hnext, hreg, hpc, hframe⟩ := s.exists_alu_ok_eq_next (f rd v) rd w
  exact ⟨t, hexec.trans hnext, by rw [hreg, hw], hpc, hframe⟩

/-! ### DIV and MOD -/

/-- Only -2^31 by -1 has a quotient outside the signed range (R135). -/
theorem tdiv_range {a b : Int} (hlow : -2 ^ 31 ≤ a) (hhigh : a < 2 ^ 31) (ho : ¬ (a = -2 ^ 31 ∧ b = -1)) :
    -2 ^ 31 ≤ a.tdiv b ∧ a.tdiv b < 2 ^ 31 := by
  by_cases hone : b = 1 ∨ b = -1
  · obtain rfl | rfl := hone
    · rw [Int.tdiv_one]; omega
    · rw [Int.tdiv_neg, Int.tdiv_one]; omega
  · have habs : (a.tdiv b).natAbs ≤ 2 ^ 30 := by
      rw [Int.natAbs_tdiv]
      change a.natAbs / b.natAbs ≤ 2 ^ 30
      obtain hzero | htwo : b.natAbs = 0 ∨ 2 ≤ b.natAbs := by omega
      · rw [hzero, Nat.div_zero]; exact Nat.zero_le _
      · exact (Nat.div_le_div (by omega : a.natAbs ≤ 2 ^ 31) htwo (by decide)).trans (by decide)
    omega

theorem toInt_quotient {a v : Word} (ho : ¬ (a.toInt = -2 ^ 31 ∧ v.toInt = -1)) :
    (BitVec.ofInt 32 (a.toInt.tdiv v.toInt)).toInt = a.toInt.tdiv v.toInt := by
  obtain ⟨hlow, hhigh⟩ := tdiv_range (BitVec.le_toInt a) BitVec.toInt_lt ho
  exact BitVec.toInt_ofInt_eq_self (by decide) hlow hhigh

theorem sub_tdiv_mul (a b : Int) : a - a.tdiv b * b = a.tmod b := by
  rw [Int.tmod_def, Int.mul_comm]

theorem tmod_nonpos {a : Int} (b : Int) (ha : a ≤ 0) : a.tmod b ≤ 0 := by
  have h := Int.tmod_nonneg b (Int.neg_nonneg.mpr ha)
  rw [Int.neg_tmod] at h
  omega

theorem natAbs_tmod_lt (a : Int) {b : Int} (hb : b ≠ 0) : (a.tmod b).natAbs < b.natAbs := by
  rw [Int.natAbs_tmod]
  exact Nat.mod_lt _ (Int.natAbs_pos.mpr hb)

theorem toInt_remainder {a v : Word} (hv : v.toInt ≠ 0) :
    (BitVec.ofInt 32 (a.toInt - a.toInt.tdiv v.toInt * v.toInt)).toInt = a.toInt.tmod v.toInt := by
  have hlt := natAbs_tmod_lt a.toInt hv
  have hlow : -2 ^ 31 ≤ v.toInt := BitVec.le_toInt v
  have hhigh : v.toInt < 2 ^ 31 := BitVec.toInt_lt
  rw [sub_tdiv_mul]
  exact BitVec.toInt_ofInt_eq_self (by decide) (by omega) (by omega)

/-- Settles O44: quotient and remainder are Int's truncating ones, and both fit in a word. -/
theorem divModTruncate : Obligations.DivModTruncate := by
  rintro rd v s a b rfl rfl hb ho
  obtain ⟨t, ht, htreg, htpc, htframe⟩ :=
    s.exists_alu_ok_eq_next (.div rd v) rd (BitVec.ofInt 32 ((s.reg rd).toInt.tdiv (s.value v).toInt))
  obtain ⟨u, hu, hureg, hupc, huframe⟩ := s.exists_alu_ok_eq_next (.mod rd v) rd
    (BitVec.ofInt 32 ((s.reg rd).toInt - (s.reg rd).toInt.tdiv (s.value v).toInt * (s.value v).toInt))
  have hq : (t.reg rd).toInt = (s.reg rd).toInt.tdiv (s.value v).toInt := by rw [htreg, toInt_quotient ho]
  have hr : (u.reg rd).toInt = (s.reg rd).toInt.tmod (s.value v).toInt := by rw [hureg, toInt_remainder hb]
  refine ⟨t, u, ?_, ?_, ?_, ?_, fun ha => ?_, fun ha => ?_, htpc, htframe, hupc, huframe⟩
  · rw [exec_div, quotient_of_ne_zero hb ho, ht]
  · rw [exec_mod, remainder_of_ne_zero hb ho, hu]
  · rw [hq, hr, Int.tdiv_mul_add_tmod]
  · rw [hr]; exact natAbs_tmod_lt _ hb
  · rw [hr]; exact Int.tmod_nonneg _ ha
  · rw [hr]; exact tmod_nonpos _ ha

theorem quotient_of_zero {c : Config} {a v : Word} (hv : v.toInt = 0) : quotient c a v = .error ⟨.divideByZero, 0⟩ :=
  if_pos hv

theorem remainder_of_zero {c : Config} {a v : Word} (hv : v.toInt = 0) : remainder c a v = .error ⟨.divideByZero, 0⟩ :=
  if_pos hv

/-- The pair without a quotient, under each policy. -/
theorem quotient_of_overflow {c : Config} {a v : Word} (ha : a.toInt = -2 ^ 31) (hv : v.toInt = -1) :
    (c.divOverflow = .fault → quotient c a v = .error ⟨.divideOverflow, 0⟩) ∧
    (c.divOverflow = .wrap → quotient c a v = .ok 0x80000000) := by
  have ho : divOverflows a v = true := decide_eq_true ⟨ha, hv⟩
  constructor <;> intro hc <;> rw [quotient, if_neg (by omega), if_pos ho, hc]

theorem remainder_of_overflow {c : Config} {a v : Word} (ha : a.toInt = -2 ^ 31) (hv : v.toInt = -1) :
    (c.divOverflow = .fault → remainder c a v = .error ⟨.divideOverflow, 0⟩) ∧
    (c.divOverflow = .wrap → remainder c a v = .ok 0) := by
  have ho : divOverflows a v = true := decide_eq_true ⟨ha, hv⟩
  constructor <;> intro hc <;> rw [remainder, if_neg (by omega), if_pos ho, hc]

/-- Settles O45: the two operations answer the pair and the divisor 0 alike, and the common form raises or writes it. -/
theorem divModCorners : Obligations.DivModCorners := by
  intro rd v s
  refine ⟨fun hv => ⟨?_, ?_⟩, fun ha hv => ⟨fun hc => ⟨?_, ?_⟩, fun hc => ?_⟩⟩
  · rw [exec_div, quotient_of_zero hv, State.alu_error, State.raise_eq_setRun]
  · rw [exec_mod, remainder_of_zero hv, State.alu_error, State.raise_eq_setRun]
  · rw [exec_div, (quotient_of_overflow ha hv).1 hc, State.alu_error, State.raise_eq_setRun]
  · rw [exec_mod, (remainder_of_overflow ha hv).1 hc, State.alu_error, State.raise_eq_setRun]
  · obtain ⟨t, ht, htreg, htpc, htframe⟩ := s.exists_alu_ok_eq_next (.div rd v) rd 0x80000000
    obtain ⟨u, hu, hureg, hupc, huframe⟩ := s.exists_alu_ok_eq_next (.mod rd v) rd 0
    refine ⟨t, u, ?_, ?_, by rw [htreg]; rfl, by rw [hureg]; rfl, htpc, htframe, hupc, huframe⟩
    · rw [exec_div, (quotient_of_overflow ha hv).2 hc, ht]
    · rw [exec_mod, (remainder_of_overflow ha hv).2 hc, hu]

/-! ### SHL and SHR -/

/-- Dividing by a power of two stays in the signed range. -/
theorem ediv_two_pow_range {a : Int} (hlow : -2 ^ 31 ≤ a) (hhigh : a < 2 ^ 31) (n : Nat) :
    -2 ^ 31 ≤ a / 2 ^ n ∧ a / 2 ^ n < 2 ^ 31 := by
  have hpos : (0 : Int) < 2 ^ n := by positivity
  exact ⟨Int.le_ediv_of_mul_le hpos (by nlinarith), Int.ediv_lt_of_lt_mul hpos (by nlinarith)⟩

/-- Both shifts by an amount that raises no fault complete, SHL by multiplying and SHR by dividing, rounded down. -/
theorem exists_shifts_of_shiftAmount {rd : RegIx} {v : Src} {s : State} {n : Nat}
    (h : shiftAmount s.cfg (s.value v) = .ok n) :
    ∃ t u, exec (.shl rd v) s = .next t ∧ exec (.shr rd v) s = .next u ∧
      (t.reg rd).toNat = (s.reg rd).toNat * 2 ^ n % 2 ^ 32 ∧ (u.reg rd).toInt = (s.reg rd).toInt.fdiv (2 ^ n) ∧
      t.pc = s.pc + BitVec.ofNat 32 (Instr.shl rd v).length ∧ OnlyRegs [rd] s t ∧
      u.pc = s.pc + BitVec.ofNat 32 (Instr.shr rd v).length ∧ OnlyRegs [rd] s u := by
  obtain ⟨t, ht, htreg, htpc, htframe⟩ :=
    s.exists_alu_ok_eq_next (.shl rd v) rd (BitVec.ofNat 32 ((s.reg rd).toNat * 2 ^ n))
  obtain ⟨u, hu, hureg, hupc, huframe⟩ :=
    s.exists_alu_ok_eq_next (.shr rd v) rd (BitVec.ofInt 32 ((s.reg rd).toInt / 2 ^ n))
  obtain ⟨hlow, hhigh⟩ := ediv_two_pow_range (BitVec.le_toInt (s.reg rd)) BitVec.toInt_lt n
  refine ⟨t, u, ?_, ?_, ?_, ?_, htpc, htframe, hupc, huframe⟩
  · rw [exec_shl, shiftLeft, h, ht]
  · rw [exec_shr, shiftRight, h, hu]
  · rw [htreg, BitVec.toNat_ofNat]
  · rw [hureg, BitVec.toInt_ofInt_eq_self (by decide) hlow hhigh, Int.fdiv_eq_ediv_of_nonneg _ (by positivity)]

/-- Settles O47: such an amount is taken as it is. -/
theorem shiftsInRange : Obligations.ShiftsInRange := by
  intro rd v s n hv hn
  have hnat : (s.value v).toNat = n := by
    have := toInt_of_nonneg (a := s.value v) (by omega)
    omega
  have hamount := shiftAmount_of_lt (c := s.cfg) (v := s.value v) (by omega)
  rw [hnat] at hamount
  exact exists_shifts_of_shiftAmount hamount

/-- An amount outside 0..31, under each policy. -/
theorem shiftAmount_of_outside {c : Config} {v : Word} (hv : v.toInt < 0 ∨ 31 < v.toInt) :
    (c.shiftRange = .fault → shiftAmount c v = .error ⟨.shiftRange, v⟩) ∧
    (c.shiftRange = .mask5 → shiftAmount c v = .ok (v.toNat % 32)) := by
  constructor <;> intro hc <;> rw [shiftAmount, if_pos hv, hc]
  rw [BitVec.extractLsb'_toNat, Nat.shiftRight_zero]

/-- Settles O48: such an amount raises the fault, or its low five bits are the amount. -/
theorem shiftsOutOfRange : Obligations.ShiftsOutOfRange := by
  intro rd v s hv
  refine ⟨fun hc => ⟨?_, ?_⟩, fun hc => exists_shifts_of_shiftAmount ((shiftAmount_of_outside hv).2 hc)⟩
  · rw [exec_shl, shiftLeft, (shiftAmount_of_outside hv).1 hc, State.alu_error, State.raise_eq_setRun]
  · rw [exec_shr, shiftRight, (shiftAmount_of_outside hv).1 hc, State.alu_error, State.raise_eq_setRun]

end Sys2Proof.Machine
end

section
/-! The host instructions on a string (spec/45_system_host.md section 2): readable, or not and why. -/

namespace Sys2Proof.Machine

/-! ### Extracting the string (R152) -/

theorem State.extractString_of_not_legal {s : State} {addr : Word} (h : s.legal addr 4 = false) :
    s.extractString addr = .error ⟨.loadRange, addr⟩ := by
  rw [State.extractString, State.loadWord_error_iff.mpr ⟨h, rfl⟩]

theorem State.extractString_of_negative {s : State} {addr : Word} (h : s.legal addr 4 = true)
    (hneg : (s.mem.readWord addr.toNat).toInt < 0) :
    s.extractString addr = .error ⟨.stringLength, s.mem.readWord addr.toNat⟩ := by
  rw [State.extractString, State.loadWord_ok_iff.mpr ⟨h, rfl⟩]
  exact if_pos hneg

theorem State.extractString_of_payload_not_legal {s : State} {addr : Word} (h : s.legal addr 4 = true)
    (hlen : 0 ≤ (s.mem.readWord addr.toNat).toInt)
    (hpayload : s.legal (addr + 4) (s.mem.readWord addr.toNat).toNat = false) :
    s.extractString addr = .error ⟨.loadRange, addr + 4⟩ := by
  rw [State.extractString, State.loadWord_ok_iff.mpr ⟨h, rfl⟩]
  simp only [if_neg (Int.not_lt.mpr hlen), hpayload, Bool.false_eq_true, if_false]

/-! ### The instructions -/

theorem exec_of_extractString_error {i : Instr} {s : State} {a : Src} {event : List Byte → HostEvent} {r : FaultRecord}
    (hevent : hostEvent i = some (a, event)) (h : s.extractString (s.value a) = .error r) :
    exec i s = .next (s.setRun (.faulted r)) := by
  rw [exec_of_hostEvent s hevent, State.hostCall, h]
  rfl

/-- A host instruction on a readable string, with a host that acknowledges, completes with its event. -/
theorem exists_next_of_extractString {i : Instr} {s : State} {a : Src} {event : List Byte → HostEvent}
    {bytes : List Byte} (hevent : hostEvent i = some (a, event)) (h : s.extractString (s.value a) = .ok bytes)
    (hhost : s.hostSilentAt ≠ some s.hostLog.length) :
    ∃ t, exec i s = .next t ∧ t.hostLog = s.hostLog ++ [event bytes] ∧
      t.pc = s.pc + BitVec.ofNat 32 i.length ∧ OnlyHostLog s t := by
  refine ⟨(s.afterDecode i).setHostLog (s.hostLog ++ [event bytes]), ?_, rfl, rfl, ⟨fun _ _ => rfl, fun _ => rfl⟩,
    fun _ => rfl, rfl, rfl, rfl, rfl, rfl⟩
  rw [exec_of_hostEvent s hevent, State.hostCall, h]
  exact State.emit_eq_next (s := s.afterDecode i) _ hhost

/-- Settles O52: the string is readable, and each of the three makes its event of it. -/
theorem hostInstructionsEmitTheString : Obligations.HostInstructionsEmitTheString := by
  rintro a s addr len bytes rfl h0 hfit rfl hlen h0' hfit' rfl hhost
  have hlegal := State.legal_of_toInt (n := 4) h0 hfit
  have hpayload : s.legal (s.value a + 4) (s.mem.readWord (s.value a).toNat).toNat = true :=
    State.legal_of_toInt h0' (by rw [← toInt_of_nonneg hlen]; exact hfit')
  have haddr : (s.value a + 4).toNat = (s.value a).toNat + 4 := by
    have := (s.legal_iff_toNat (s.value a) 4).mp hlegal
    rw [BitVec.toNat_add, show (4 : Word).toNat = 4 from rfl]
    omega
  have hstring := State.extractString_ok_iff.mpr ⟨hlegal, hlen, hpayload, rfl⟩
  rw [Memory.readBytes, haddr] at hstring
  exact ⟨exists_next_of_extractString (i := .println a) (event := fun bytes => ⟨.console, bytes ++ [0x0A]⟩) rfl
      hstring hhost,
    exists_next_of_extractString (i := .print a) (event := fun bytes => ⟨.console, bytes⟩) rfl hstring hhost,
    exists_next_of_extractString (i := .run a) (event := fun bytes => ⟨.shell, bytes⟩) rfl hstring hhost⟩

/-- Settles O53: the first of the three checks that fails is the fault, whichever host instruction it is. -/
theorem unreadableStringsFault : Obligations.UnreadableStringsFault := by
  rintro a s addr len f hf rfl rfl
  obtain ⟨event, hevent⟩ : ∃ event, hostEvent (f a) = some (a, event) := by
    simp only [List.mem_cons, List.not_mem_nil, or_false] at hf
    obtain rfl | rfl | rfl := hf <;> exact ⟨_, rfl⟩
  refine ⟨fun hout => ?_, fun hin hneg => ?_, fun hin hlen hout => ?_⟩
  · exact exec_of_extractString_error hevent (State.extractString_of_not_legal (State.legal_eq_false_iff.mpr hout))
  · exact exec_of_extractString_error hevent (State.extractString_of_negative ((s.legal_iff _ 4).mpr hin) hneg)
  · refine exec_of_extractString_error hevent
      (State.extractString_of_payload_not_legal ((s.legal_iff _ 4).mpr hin) hlen (State.legal_eq_false_iff.mpr ?_))
    rwa [← toInt_of_nonneg hlen]

end Sys2Proof.Machine
end

section
/-! Balanced sequences of PUSH and POP (spec/43_stack.md R127): what a pair around a balanced sequence does, the law by
induction on the sequence, and that it runs to its end where the stack has room. -/

namespace Sys2Proof.Machine

/-! ### Running a list of instructions -/

theorem execList_cons_eq_some_iff {i : Instr} {rest : List Instr} {s t : State} :
    execList (i :: rest) s = some t ↔ ∃ u, exec i s = .next u ∧ u.run = .running ∧ execList rest u = some t := by
  cases hexec : exec i s with
  | next u => by_cases hrun : u.run = .running <;> simp [execList, hexec, hrun]
  | fault r => simp [execList, hexec]
  | refused r => simp [execList, hexec]

theorem execList_append_eq_some_iff {front rest : List Instr} {s t : State} :
    execList (front ++ rest) s = some t ↔ ∃ u, execList front s = some u ∧ execList rest u = some t := by
  induction front generalizing s with
  | nil => simp [execList]
  | cons i front ih =>
    simp only [List.cons_append, execList_cons_eq_some_iff, ih]
    constructor
    · rintro ⟨u, hexec, hrun, v, hfront, hrest⟩; exact ⟨v, ⟨u, hexec, hrun, hfront⟩, hrest⟩
    · rintro ⟨v, ⟨u, hexec, hrun, hfront⟩, hrest⟩; exact ⟨u, hexec, hrun, v, hfront, hrest⟩

/-- A pair of a push and a pop around a sequence, and what runs after it, one after the other. -/
theorem execList_block_eq_some_iff {v : Src} {rd : RegIx} {inner rest : List Instr} {s t : State} :
    execList (.push v :: (inner ++ .pop rd :: rest)) s = some t ↔
      ∃ s1 s2 s3, (exec (.push v) s = .next s1 ∧ s1.run = .running) ∧ execList inner s1 = some s2 ∧
        (exec (.pop rd) s2 = .next s3 ∧ s3.run = .running) ∧ execList rest s3 = some t := by
  simp only [execList_cons_eq_some_iff, execList_append_eq_some_iff]
  constructor
  · rintro ⟨s1, hpush, hrun1, s2, hinner, s3, hpop, hrun3, hrest⟩
    exact ⟨s1, s2, s3, ⟨hpush, hrun1⟩, hinner, ⟨hpop, hrun3⟩, hrest⟩
  · rintro ⟨s1, s2, s3, ⟨hpush, hrun1⟩, hinner, ⟨hpop, hrun3⟩, hrest⟩
    exact ⟨s1, hpush, hrun1, s2, hinner, s3, hpop, hrun3, hrest⟩

/-- Instructions that run one after the other keep the machine running and its parameters, and R255 stays set. -/
theorem execList_frame {w : List Instr} {s t : State} (h : execList w s = some t) (hrun : s.run = .running) :
    t.run = .running ∧ t.cfg = s.cfg ∧ (s.spWritten = true → t.spWritten = true) := by
  induction w generalizing s with
  | nil => cases h; exact ⟨hrun, rfl, id⟩
  | cons i rest ih =>
    obtain ⟨u, hexec, hu, hrest⟩ := execList_cons_eq_some_iff.mp h
    have hc := completed_of_running hexec hu
    obtain ⟨ht, hcfg, hsp⟩ := ih hrest hu
    exact ⟨ht, hcfg.trans hc.cfg, fun hw => hsp (by rw [hc.spWritten, hw, Bool.true_or])⟩

/-! ### A push and a pop that do not fault -/

theorem push_of_running {v : Src} {s t : State} (h : exec (.push v) s = .next t) (ht : t.run = .running) :
    Completed (.push v) s t ∧ s.legal s.pushAddress 4 = true ∧ t.reg spIndex = s.pushAddress := by
  have hc := completed_of_running h ht
  have hlegal : s.legal s.pushAddress 4 = true := hc.legal _ _ rfl
  refine ⟨hc, hlegal, ?_⟩
  cases h.symm.trans (exec_push_of_legal hlegal v)
  simp

theorem pop_of_running {rd : RegIx} {s t : State} (h : exec (.pop rd) s = .next t) (ht : t.run = .running)
    (hrd : rd ≠ spIndex) :
    t.reg rd = s.mem.readWord (s.reg spIndex).toNat ∧ t.reg spIndex = s.reg spIndex + 4 ∧ t.mem = s.mem := by
  have hmem := (completed_of_running h ht).mem
  cases htop : s.topWord with
  | error r =>
    cases h.symm.trans (exec_pop_of_topWord_error htop rd)
    cases ht
  | ok w =>
    obtain ⟨-, -, hword⟩ := State.topWord_ok_iff.mp htop
    obtain ⟨t', hexec, hregs, -⟩ := exists_pop_of_topWord htop rd
    cases h.symm.trans hexec
    obtain ⟨hvalue, hsp⟩ := hregs hrd
    exact ⟨hvalue.trans hword.symm, hsp, hmem⟩

/-- The four bytes of a legal push end where R255 pointed. -/
theorem State.toNat_sp_of_legal {s : State} (h : s.legal s.pushAddress 4 = true) :
    (s.reg spIndex).toNat = s.pushAddress.toNat + 4 := by
  obtain ⟨hlow, -⟩ := (State.legal_iff_toNat s _ 4).mp h
  rw [State.pushAddress, BitVec.toNat_sub, show (4 : Word).toNat = 4 from rfl] at hlow ⊢
  omega

theorem State.pushAddress_add (s : State) : s.pushAddress + 4 = s.reg spIndex := BitVec.sub_add_cancel _ _

/-! ### The law -/

/-- R255 and every byte from R255 on are as before. -/
def StackKept (s t : State) : Prop :=
  t.reg spIndex = s.reg spIndex ∧ ∀ b, (s.reg spIndex).toNat ≤ b → t.mem.read b = s.mem.read b

/-- A push and a pop around what keeps the stack: the pair keeps it too, and the pop gives the pushed value. -/
theorem stackKept_pair {v : Src} {rd : RegIx} {s s1 s2 s3 : State}
    (hpush : exec (.push v) s = .next s1 ∧ s1.run = .running) (hin : StackKept s1 s2)
    (hpop : exec (.pop rd) s2 = .next s3 ∧ s3.run = .running) (hrd : rd ≠ spIndex) :
    StackKept s s3 ∧ (s.mem.wf = true → s3.reg rd = s.value v) := by
  obtain ⟨hc, hlegal, hsp1⟩ := push_of_running hpush.1 hpush.2
  obtain ⟨hsp2, hmem2⟩ := hin
  obtain ⟨hvalue, hsp3, hmem3⟩ := pop_of_running hpop.1 hpop.2 hrd
  rw [hsp1] at hsp2 hmem2
  rw [hsp2] at hvalue hsp3
  refine ⟨⟨hsp3.trans s.pushAddress_add, fun b hb => ?_⟩, fun hwf => ?_⟩
  · have hend := State.toNat_sp_of_legal hlegal
    rw [hmem3, hmem2 b (by omega), hc.memKept rfl b (.inr (by omega))]
  · rw [hvalue, Memory.readWord_congr fun c hc _ => hmem2 c hc]
    exact hc.readWord_stored hwf rfl rfl

theorem Balanced.stackKept {w : List Instr} (hw : Balanced w) {s t : State} (h : execList w s = some t) :
    StackKept s t := by
  induction hw generalizing s t with
  | nil => cases h; exact ⟨rfl, fun _ _ => rfl⟩
  | block v rd inner rest hrd _ _ ihin ihrest =>
    obtain ⟨s1, s2, s3, hpush, hinner, hpop, hrest⟩ := execList_block_eq_some_iff.mp h
    obtain ⟨⟨hsp, hmem⟩, -⟩ := stackKept_pair hpush (ihin hinner) hpop hrd
    obtain ⟨hsp', hmem'⟩ := ihrest hrest
    exact ⟨hsp'.trans hsp, fun b hb => (hmem' b (hsp ▸ hb)).trans (hmem b hb)⟩

/-- Settles O41: the sequence between them keeps the pushed word, by induction on its pairs. -/
theorem popReturnsTheMatchingPush : Obligations.PopReturnsTheMatchingPush := by
  intro v rd inner s t hin hrd _ hwf h
  obtain ⟨s1, s2, s3, hpush, hinner, hpop, hrest⟩ := execList_block_eq_some_iff.mp h
  cases hrest
  obtain ⟨⟨hsp, -⟩, hvalue⟩ := stackKept_pair hpush (hin.stackKept hinner) hpop hrd
  exact ⟨hvalue hwf, hsp⟩

/-! ### Room on the stack -/

theorem State.toInt_pushAddress {s : State} (h : 4 ≤ (s.reg spIndex).toInt) :
    s.pushAddress.toInt = (s.reg spIndex).toInt - 4 := by
  have hhigh : (s.reg spIndex).toInt < 2 ^ 31 := BitVec.toInt_lt
  rw [State.pushAddress, BitVec.toInt_sub, show (4 : Word).toInt = 4 from rfl]
  exact Int.bmod_eq_of_le_mul_two (by omega) (by omega)

theorem exists_push_running {s : State} (hrun : s.run = .running) (h : s.legal s.pushAddress 4 = true) (v : Src) :
    ∃ t, exec (.push v) s = .next t ∧ t.run = .running :=
  ⟨_, exec_push_of_legal h v, hrun⟩

theorem exists_pop_running {s : State} (hrun : s.run = .running) (hset : s.spWritten = true)
    (h : s.legal (s.reg spIndex) 4 = true) (rd : RegIx) : ∃ t, exec (.pop rd) s = .next t ∧ t.run = .running :=
  ⟨_, exec_pop_of_topWord (State.topWord_of_legal (.inl hset) h) rd, hrun⟩

/-- A balanced sequence runs to its end where R255 is inside memory with four bytes below it for each instruction. -/
theorem Balanced.exists_execList {w : List Instr} (hw : Balanced w) {s : State} (hrun : s.run = .running)
    (hroom : 4 * (w.length : Int) ≤ (s.reg spIndex).toInt) (hin : (s.reg spIndex).toInt ≤ s.cfg.memSize) :
    ∃ t, execList w s = some t := by
  induction hw generalizing s with
  | nil => exact ⟨s, rfl⟩
  | block v rd inner rest hrd hinner _ ihin ihrest =>
    simp only [List.length_cons, List.length_append] at hroom
    have haddr := State.toInt_pushAddress (s := s) (by omega)
    have hlegal : s.legal s.pushAddress 4 = true := State.legal_of_toInt (by omega) (by omega)
    obtain ⟨s1, hpush⟩ := exists_push_running hrun hlegal v
    obtain ⟨hc1, -, hsp1⟩ := push_of_running hpush.1 hpush.2
    obtain ⟨s2, hinner2⟩ := ihin hpush.2 (by rw [hsp1]; omega) (by rw [hsp1, hc1.cfg]; omega)
    obtain ⟨hrun2, hcfg2, hset2⟩ := execList_frame hinner2 hpush.2
    have hkept2 := hinner.stackKept hinner2
    have hset1 : s1.spWritten = true := by rw [hc1.spWritten]; simp [writesRegs]
    have hlegal2 : s2.legal (s2.reg spIndex) 4 = true := by
      rw [hkept2.1, hsp1, State.legal_congr (hcfg2.trans hc1.cfg), hlegal]
    obtain ⟨s3, hpop⟩ := exists_pop_running hrun2 (hset2 hset1) hlegal2 rd
    obtain ⟨⟨hsp3, -⟩, -⟩ := stackKept_pair hpush hkept2 hpop hrd
    have hcfg3 : s3.cfg = s.cfg := (completed_of_running hpop.1 hpop.2).cfg.trans (hcfg2.trans hc1.cfg)
    obtain ⟨t, hrest⟩ := ihrest hpop.2 (by rw [hsp3]; omega) (by rw [hsp3, hcfg3]; omega)
    exact ⟨t, execList_block_eq_some_iff.mpr ⟨s1, s2, s3, hpush, hinner2, hpop, hrest⟩⟩

/-- Settles O42: it runs to its end by induction on its pairs, and keeps R255 as every balanced sequence does. -/
theorem balancedStackUseCompletes : Obligations.BalancedStackUseCompletes := by
  intro w s hw hrun hroom hin
  obtain ⟨t, h⟩ := hw.exists_execList hrun hroom hin
  exact ⟨t, h, (hw.stackKept h).1⟩

end Sys2Proof.Machine
end
